-- ==== Sys2Proof/Word.lean ====
section
/-! DEFINITION. The words of the WSG block: the 32-bit command word of each port (10, 30), the signed 16-bit sample
of the three index spaces (20), and the 64-bit counters of the ring (10). -/

namespace Sys2Proof

/-- A word of a port's stream: command header, operand or response (R80). -/
abbrev Word := BitVec 32

/-- One element of RING, MIX or a ROM table: 16 bits, read as two's complement (R50, R55). -/
abbrev Sample := BitVec 16

/-- A ring counter: `current`, `remain`, `called`, unsigned 64-bit (R30). -/
abbrev Counter := BitVec 64

/-- One byte of a transport that carries words as bytes (R53). -/
abbrev Byte := BitVec 8

end Sys2Proof
end

