-- ==== Sys2Proof/Syntax.lean ====
section
/-! DEFINITION. The commands of the block: one constructor of `Instr` per row of the opcode map (R90), with the fields
and operand words of rules R82 to R88 taken apart. -/

namespace Sys2Proof

/-- The two ports; an agent's identity is its port (R80, R207, R215). -/
inductive Port where
  | producer
  | consumer
deriving DecidableEq, Repr

/-- A voice (channel slot) index, `ch` or `v`, 0..7 (R14, R83). -/
abbrev Voice := Fin 8

/-- The rows of the opcode map, by name (R90). -/
inductive Opcode where
  | chWrite
  | voiceMute
  | generate
  | mixRead
  | bufOpen
  | bufWrite
  | bufAppend
  | bufFillSilent
  | bufSetVolume
  | bufSetMute
  | bufGetCurrent
  | bufGetRemain
  | bufGetCalled
  | bufGetVolume
  | bufGetMute
  | readOne
  | callbackDone
deriving DecidableEq, Repr

/-- A command whose header selects a row and whose operand words have all arrived. Reserved operand bits are kept,
since the command itself raises RESERVED_OPERAND on them (R85, R88, R203). -/
inductive Instr where
  /-- CH_WRITE (R120): voice, then `W[31:27]`, `W[26:24]`, `W[23:20]`, `W[19:0]` of the register word (R85). -/
  | chWrite (ch : Voice) (reserved : BitVec 5) (wave : BitVec 3) (gain : BitVec 4) (freq : BitVec 20)
  /-- VOICE_MUTE (R121). -/
  | voiceMute (ch : Voice) (m : Bool)
  /-- GENERATE (R130). -/
  | generate
  /-- MIX_READ (R144). -/
  | mixRead (k : BitVec 16)
  /-- BUF_OPEN (R160) with its capacity word (R86). -/
  | bufOpen (cap : BitVec 32)
  /-- BUF_WRITE (R180): absolute position, the `n` samples, and the upper half of the last payload word, which an
  odd `n` leaves unused (R88). -/
  | bufWrite (offset : BitVec 64) (samples : List Sample) (pad : BitVec 16)
  /-- BUF_APPEND (R182): samples and unused half as for BUF_WRITE. -/
  | bufAppend (samples : List Sample) (pad : BitVec 16)
  /-- BUF_FILL_SILENT (R162). -/
  | bufFillSilent
  /-- BUF_SET_VOLUME (R164). -/
  | bufSetVolume (v : BitVec 3)
  /-- BUF_SET_MUTE (R165). -/
  | bufSetMute (m : Bool)
  /-- BUF_GET_CURRENT (R166). -/
  | bufGetCurrent
  /-- BUF_GET_REMAIN (R167). -/
  | bufGetRemain
  /-- BUF_GET_CALLED (R168). -/
  | bufGetCalled
  /-- BUF_GET_VOLUME (R169). -/
  | bufGetVolume
  /-- BUF_GET_MUTE (R170). -/
  | bufGetMute
  /-- READ_ONE (R190). -/
  | readOne
  /-- CALLBACK_DONE (R193). -/
  | callbackDone
deriving DecidableEq, Repr

end Sys2Proof
end

