-- ==== Sys2Proof/WellFormed.lean ====
section
/-! DEFINITION. Which commands have an encoding. The field types carry every range of R82 to R88 but two: the sample
count fits the 16-bit count field, and a payload with an even count has no unused half word. -/

namespace Sys2Proof

/-- The count `n` fits `imm16` (R88, R96: at most 65535 samples). -/
def samplesFit (samples : List Sample) : Bool := samples.length ≤ 65535

/-- Only an odd count leaves a half of the last payload word unused (R88). -/
def padFits (samples : List Sample) (pad : BitVec 16) : Bool := samples.length % 2 == 1 || pad == 0#16

/-- A command that the encoding of R80 to R95 can carry. -/
def Instr.wf : Instr → Bool
  | .bufWrite _ samples pad => samplesFit samples && padFits samples pad
  | .bufAppend samples pad => samplesFit samples && padFits samples pad
  | .chWrite _ _ _ _ _ => true
  | .voiceMute _ _ => true
  | .generate => true
  | .mixRead _ => true
  | .bufOpen _ => true
  | .bufFillSilent => true
  | .bufSetVolume _ => true
  | .bufSetMute _ => true
  | .bufGetCurrent => true
  | .bufGetRemain => true
  | .bufGetCalled => true
  | .bufGetVolume => true
  | .bufGetMute => true
  | .readOne => true
  | .callbackDone => true

end Sys2Proof
end

