-- ==== Sys2Proof/Decode.lean ====
section
/-! DEFINITION. The opcode map (R90), the decoder, total on any stream of words and rejecting by name (R92, R93), and
the encoder written from the same tables (R85 to R88, R96). -/

namespace Sys2Proof

/-! ### The opcode map -/

/-- One row of R90: a header `H` selects it when `H & mask = match`. -/
structure OpRow where
  opcode : Opcode
  port : Port
  matchBits : Word
  mask : Word
deriving DecidableEq, Repr

/-- The row of each command, column by column as R90 has it. -/
def Opcode.row : Opcode → OpRow
  | .chWrite => ⟨.chWrite, .producer, 0x01000000#32, 0xFFF8FFFF#32⟩
  | .voiceMute => ⟨.voiceMute, .producer, 0x02000000#32, 0xFFF8FFFE#32⟩
  | .generate => ⟨.generate, .producer, 0x03000000#32, 0xFFFFFFFF#32⟩
  | .mixRead => ⟨.mixRead, .producer, 0x04000000#32, 0xFFFF0000#32⟩
  | .bufOpen => ⟨.bufOpen, .producer, 0x10000000#32, 0xFFFFFFFF#32⟩
  | .bufWrite => ⟨.bufWrite, .producer, 0x11000000#32, 0xFFFF0000#32⟩
  | .bufAppend => ⟨.bufAppend, .producer, 0x12000000#32, 0xFFFF0000#32⟩
  | .bufFillSilent => ⟨.bufFillSilent, .producer, 0x13000000#32, 0xFFFFFFFF#32⟩
  | .bufSetVolume => ⟨.bufSetVolume, .producer, 0x14000000#32, 0xFFFFFFF8#32⟩
  | .bufSetMute => ⟨.bufSetMute, .producer, 0x15000000#32, 0xFFFFFFFE#32⟩
  | .bufGetCurrent => ⟨.bufGetCurrent, .producer, 0x16000000#32, 0xFFFFFFFF#32⟩
  | .bufGetRemain => ⟨.bufGetRemain, .producer, 0x17000000#32, 0xFFFFFFFF#32⟩
  | .bufGetCalled => ⟨.bufGetCalled, .producer, 0x18000000#32, 0xFFFFFFFF#32⟩
  | .bufGetVolume => ⟨.bufGetVolume, .producer, 0x19000000#32, 0xFFFFFFFF#32⟩
  | .bufGetMute => ⟨.bufGetMute, .producer, 0x1A000000#32, 0xFFFFFFFF#32⟩
  | .readOne => ⟨.readOne, .consumer, 0x20000000#32, 0xFFFFFFFF#32⟩
  | .callbackDone => ⟨.callbackDone, .consumer, 0x21000000#32, 0xFFFFFFFF#32⟩

/-- The complete map of R90, in the table's order. -/
def opcodeMap : List OpRow :=
  [Opcode.chWrite.row, Opcode.voiceMute.row, Opcode.generate.row, Opcode.mixRead.row, Opcode.bufOpen.row,
   Opcode.bufWrite.row, Opcode.bufAppend.row, Opcode.bufFillSilent.row, Opcode.bufSetVolume.row,
   Opcode.bufSetMute.row, Opcode.bufGetCurrent.row, Opcode.bufGetRemain.row, Opcode.bufGetCalled.row,
   Opcode.bufGetVolume.row, Opcode.bufGetMute.row, Opcode.readOne.row, Opcode.callbackDone.row]

/-- `H & mask = match` (R90). -/
def OpRow.selects (r : OpRow) (h : Word) : Bool := h &&& r.mask == r.matchBits

/-- The row a header selects, or none: an illegal header (R90, R92, R94). -/
def selectRow (h : Word) : Option OpRow := opcodeMap.find? fun r => r.selects h

/-- The row of a command. -/
def Instr.opcode : Instr → Opcode
  | .chWrite _ _ _ _ _ => .chWrite
  | .voiceMute _ _ => .voiceMute
  | .generate => .generate
  | .mixRead _ => .mixRead
  | .bufOpen _ => .bufOpen
  | .bufWrite _ _ _ => .bufWrite
  | .bufAppend _ _ => .bufAppend
  | .bufFillSilent => .bufFillSilent
  | .bufSetVolume _ => .bufSetVolume
  | .bufSetMute _ => .bufSetMute
  | .bufGetCurrent => .bufGetCurrent
  | .bufGetRemain => .bufGetRemain
  | .bufGetCalled => .bufGetCalled
  | .bufGetVolume => .bufGetVolume
  | .bufGetMute => .bufGetMute
  | .readOne => .readOne
  | .callbackDone => .callbackDone

/-- The port that accepts a command: the port column of R90 (R207). -/
def Instr.port (i : Instr) : Port := i.opcode.row.port

/-! ### Fields of the words (R81 to R88, R95) -/

/-- `H[18:16]`, the voice of format C (R83). -/
def chField (h : Word) : Voice := (h.extractLsb' 16 3).toFin

/-- `H[15:0]`, `imm16` of formats C and I (R83, R84). -/
def immField (h : Word) : BitVec 16 := h.extractLsb' 0 16

/-- `H[2:0]`, the volume of BUF_SET_VOLUME (R90). -/
def volumeField (h : Word) : BitVec 3 := h.extractLsb' 0 3

/-- `H[0]`, the mute value of VOICE_MUTE and BUF_SET_MUTE (R90). -/
def muteField (h : Word) : Bool := h.getLsbD 0

/-- `W[31:27]`, reserved in the channel register word (R85). -/
def reservedField (w : Word) : BitVec 5 := w.extractLsb' 27 5

/-- `W[26:24]` of the channel register word (R85). -/
def waveField (w : Word) : BitVec 3 := w.extractLsb' 24 3

/-- `W[23:20]` of the channel register word (R85). -/
def gainField (w : Word) : BitVec 4 := w.extractLsb' 20 4

/-- `W[19:0]` of the channel register word (R85). -/
def freqField (w : Word) : BitVec 20 := w.extractLsb' 0 20

/-- `OL + OH * 2^32` (R87). -/
def offsetOf (ol oh : Word) : BitVec 64 := oh ++ ol

/-- The lower-indexed sample of a payload word, `P[j][15:0]` (R88). -/
def lowHalf (p : Word) : Sample := p.extractLsb' 0 16

/-- The higher-indexed sample of a payload word, `P[j][31:16]` (R88). -/
def highHalf (p : Word) : Sample := p.extractLsb' 16 16

/-- `n` samples from a payload of `ceil(n/2)` words, with the unused upper half of the last word when `n` is odd (0
when it is even) and the words after the payload (R88). None when the words run out. -/
def takeSamples : Nat → List Word → Option (List Sample × BitVec 16 × List Word)
  | 0, ws => some ([], 0#16, ws)
  | 1, w :: ws => some ([lowHalf w], highHalf w, ws)
  | n + 2, w :: ws =>
    match takeSamples n ws with
    | some (ss, pad, rest) => some (lowHalf w :: highHalf w :: ss, pad, rest)
    | none => none
  | _ + 1, [] => none

/-! ### The decoder -/

/-- Why a stream does not begin with a complete command. -/
inductive DecodeError where
  /-- The stream is at its end: there is no header, and so no command. Raises nothing. -/
  | noHeader
  /-- The header selects no row (R92). Step raises ILLEGAL_COMMAND. -/
  | illegalCommand
  /-- The stream ends before all operand words have arrived (R93). Step raises TRUNCATED, or WRONG_PORT, which
  comes first (R203). -/
  | truncated
deriving DecidableEq, Repr

/-- The command of a selected row, from its header and the words after it, with the words left over (R93, R95). -/
def decodeOperands : Opcode → Word → List Word → Except DecodeError (Instr × List Word)
  | .chWrite, h, w :: ws => .ok (.chWrite (chField h) (reservedField w) (waveField w) (gainField w) (freqField w), ws)
  | .chWrite, _, [] => .error .truncated
  | .voiceMute, h, ws => .ok (.voiceMute (chField h) (muteField h), ws)
  | .generate, _, ws => .ok (.generate, ws)
  | .mixRead, h, ws => .ok (.mixRead (immField h), ws)
  | .bufOpen, _, w :: ws => .ok (.bufOpen w, ws)
  | .bufOpen, _, [] => .error .truncated
  | .bufWrite, h, ol :: oh :: ws =>
    match takeSamples (immField h).toNat ws with
    | some (ss, pad, rest) => .ok (.bufWrite (offsetOf ol oh) ss pad, rest)
    | none => .error .truncated
  | .bufWrite, _, _ => .error .truncated
  | .bufAppend, h, ws =>
    match takeSamples (immField h).toNat ws with
    | some (ss, pad, rest) => .ok (.bufAppend ss pad, rest)
    | none => .error .truncated
  | .bufFillSilent, _, ws => .ok (.bufFillSilent, ws)
  | .bufSetVolume, h, ws => .ok (.bufSetVolume (volumeField h), ws)
  | .bufSetMute, h, ws => .ok (.bufSetMute (muteField h), ws)
  | .bufGetCurrent, _, ws => .ok (.bufGetCurrent, ws)
  | .bufGetRemain, _, ws => .ok (.bufGetRemain, ws)
  | .bufGetCalled, _, ws => .ok (.bufGetCalled, ws)
  | .bufGetVolume, _, ws => .ok (.bufGetVolume, ws)
  | .bufGetMute, _, ws => .ok (.bufGetMute, ws)
  | .readOne, _, ws => .ok (.readOne, ws)
  | .callbackDone, _, ws => .ok (.callbackDone, ws)

/-- The command a stream begins with, and the words after it (R80, R93). -/
def decode : List Word → Except DecodeError (Instr × List Word)
  | [] => .error .noHeader
  | h :: ws =>
    match selectRow h with
    | none => .error .illegalCommand
    | some r => decodeOperands r.opcode h ws

/-! ### The encoder -/

/-- The channel register word (R85, R96). -/
def channelWord (reserved : BitVec 5) (wave : BitVec 3) (gain : BitVec 4) (freq : BitVec 20) : Word :=
  reserved ++ wave ++ gain ++ freq

/-- The payload words of a sample list, two samples a word, `pad` in the upper half of the last word of an odd
count (R88). -/
def payloadWords : List Sample → BitVec 16 → List Word
  | [], _ => []
  | [x], pad => [(pad ++ x : BitVec 32)]
  | x :: y :: ss, pad => (y ++ x : BitVec 32) :: payloadWords ss pad

/-- The header's fields beside the opcode's match bits: R96's `or` column. -/
def Instr.headerFields : Instr → Word
  | .chWrite ch _ _ _ _ => BitVec.ofNat 32 ch.val <<< 16
  | .voiceMute ch m => (BitVec.ofNat 32 ch.val <<< 16) ||| (BitVec.ofBool m).setWidth 32
  | .generate => 0#32
  | .mixRead k => k.setWidth 32
  | .bufOpen _ => 0#32
  | .bufWrite _ samples _ => (BitVec.ofNat 16 samples.length).setWidth 32
  | .bufAppend samples _ => (BitVec.ofNat 16 samples.length).setWidth 32
  | .bufFillSilent => 0#32
  | .bufSetVolume v => v.setWidth 32
  | .bufSetMute m => (BitVec.ofBool m).setWidth 32
  | .bufGetCurrent => 0#32
  | .bufGetRemain => 0#32
  | .bufGetCalled => 0#32
  | .bufGetVolume => 0#32
  | .bufGetMute => 0#32
  | .readOne => 0#32
  | .callbackDone => 0#32

/-- The header word of a command (R81 to R84, R96). -/
def Instr.header (i : Instr) : Word := i.opcode.row.matchBits ||| i.headerFields

/-- The operand words of a command (R85 to R88). -/
def Instr.operands : Instr → List Word
  | .chWrite _ reserved wave gain freq => [channelWord reserved wave gain freq]
  | .bufOpen cap => [cap]
  | .bufWrite offset samples pad => offset.extractLsb' 0 32 :: offset.extractLsb' 32 32 :: payloadWords samples pad
  | .bufAppend samples pad => payloadWords samples pad
  | .voiceMute _ _ => []
  | .generate => []
  | .mixRead _ => []
  | .bufFillSilent => []
  | .bufSetVolume _ => []
  | .bufSetMute _ => []
  | .bufGetCurrent => []
  | .bufGetRemain => []
  | .bufGetCalled => []
  | .bufGetVolume => []
  | .bufGetMute => []
  | .readOne => []
  | .callbackDone => []

/-- The words of a command: header, then operand words (R80, R96). -/
def encode (i : Instr) : List Word := i.header :: i.operands

/-! ### Lengths and the byte transport -/

/-- Operand words a row's header calls for (R90, R93). -/
def operandCount (op : Opcode) (h : Word) : Nat :=
  match op with
  | .chWrite => 1
  | .bufOpen => 1
  | .bufWrite => 2 + ((immField h).toNat + 1) / 2
  | .bufAppend => ((immField h).toNat + 1) / 2
  | .voiceMute => 0
  | .generate => 0
  | .mixRead => 0
  | .bufFillSilent => 0
  | .bufSetVolume => 0
  | .bufSetMute => 0
  | .bufGetCurrent => 0
  | .bufGetRemain => 0
  | .bufGetCalled => 0
  | .bufGetVolume => 0
  | .bufGetMute => 0
  | .readOne => 0
  | .callbackDone => 0

/-- Command length in words, header included (R93). An illegal header is one word. -/
def commandLength (h : Word) : Nat :=
  match selectRow h with
  | some r => 1 + operandCount r.opcode h
  | none => 1

/-- A word on a byte transport, least significant byte first (R53). -/
def wordBytes (w : Word) : List Byte :=
  [w.extractLsb' 0 8, w.extractLsb' 8 8, w.extractLsb' 16 8, w.extractLsb' 24 8]

/-- The words a byte transport has delivered whole, each least significant byte first (R53). -/
def bytesToWords : List Byte → List Word
  | b0 :: b1 :: b2 :: b3 :: bs => (b3 ++ b2 ++ b1 ++ b0 : BitVec 32) :: bytesToWords bs
  | _ => []

/-! ### The host's reading of the opcode table -/

/-- `n` words cut from a number, least significant first. -/
def cutWords : Nat → Nat → List Word
  | 0, _ => []
  | n + 1, w => BitVec.ofNat 32 w :: cutWords n (w / 2 ^ 32)

/-- The words of an instruction whose bits are `w`, the first word in bits 31..0, every operand word above `nbits`
zero. -/
def tableWords (nbits w : Nat) : List Word :=
  let ws := cutWords ((nbits + 31) / 32) (w % 2 ^ nbits)
  match ws with
  | [] => []
  | h :: _ => ws ++ List.replicate (commandLength h - ws.length) 0#32

/-- The instruction the decoder reads from an instruction whose bits are `w`. -/
def decodeTableWord (nbits w : Nat) : Option Instr :=
  match decode (tableWords nbits w) with
  | .ok (i, _) => some i
  | .error _ => none

end Sys2Proof
end

