-- ==== Sys2Proof/Config.lean ====
section
/-! DEFINITION. The parameter record of the block (R6), its constraints (R7) and derived constants (R8). A parameter
that the spec leaves OPEN with no default is an uninterpreted constant of the configuration the machine is reset with:
nothing in Lean can evaluate it. Statements about every state hold for every configuration, since State carries it. -/

namespace Sys2Proof

/-- `LOOKUP`, the waveform lookup mode (R2, R6). The undefined "direct resampled" lookup is no mode (R5, I20). -/
inductive Lookup where
  | floor
  | linear
deriving DecidableEq, Repr

/-- The record of R6. `NV`, `WAVE_COUNT`, `WAVE_LEN`, `GAIN_MAX`, `VOLUME_MAX`, `FREQ_BITS`, `SAMPLE_BITS` and
`COUNTER_BITS` are fixed by the types; `DC_CENTER` and every `WAVE_ROM[w][i]` lie in `-32768 .. 32767` and
`CAPACITY_MAX` below `2^32` by theirs. -/
structure Config where
  /-- `SAMPLE_RATE`: output samples per second. -/
  sampleRate : Nat
  /-- `REF_RATE`: internal reference rate of the phase accumulator. -/
  refRate : Nat
  /-- `PHASE_FRAC`: fraction bits of the phase below one waveform position. -/
  phaseFrac : Nat
  /-- `LOOKUP`. -/
  lookup : Lookup
  /-- `GAIN_SCALE`: factor from register gain to specified gain. -/
  gainScale : Nat
  /-- `RAMP_STEP`: largest change of the current gain per sample. -/
  rampStep : Nat
  /-- `DC_CENTER`: offset added to every mixed sample, two's complement. -/
  dcCenter : Sample
  /-- `WAVE_ROM`: the 8 tables of 32 samples (R29). -/
  waveRom : Vector (Vector Sample 32) 8
  /-- `CAPACITY_MAX`: largest capacity BUF_OPEN accepts. -/
  capacityMax : BitVec 32
  /-- `CB_LEN`: samples the consumer reads per callback, used only by the device's duty (R212). -/
  cbLen : Nat
deriving DecidableEq, Repr

/-- `WAVE_LEN`, samples per waveform table (R6). -/
def waveLen : Nat := 32

/-- `GAIN_MAX`, the largest register gain (R6). -/
def gainMax : Nat := 15

/-- `FRAME_RATE`, blocks per second the block length is cut for (R6). -/
def frameRate : Nat := 60

/-- The constraints of R7 that the field types do not already impose. A configuration that breaks one is ill-formed
and refused. (`≠ 0` is R7's `≥ 1`.) -/
def Config.wf (c : Config) : Bool :=
  frameRate ≤ c.sampleRate && c.refRate != 0 && c.gainScale != 0 && c.rampStep != 0 &&
    c.capacityMax.toNat != 0 && c.cbLen != 0

/-- `BLOCK_LEN = floor(SAMPLE_RATE / 60)`, samples per GENERATE (R6, R142). -/
def Config.blockLen (c : Config) : Nat := c.sampleRate / frameRate

/-- `UNIT = 2^PHASE_FRAC`, phase units per waveform position (R8). -/
def Config.phaseUnit (c : Config) : Nat := 2 ^ c.phaseFrac

/-- `PM = WAVE_LEN * 2^PHASE_FRAC`, the phase modulus (R8). -/
def Config.phaseMod (c : Config) : Nat := waveLen * 2 ^ c.phaseFrac

/-- `D = UNIT * SAMPLE_RATE`, the denominator of the fractional position (R8). -/
def Config.fracDenom (c : Config) : Nat := c.phaseUnit * c.sampleRate

/-- `G_FULL = 15 * GAIN_SCALE`, the full gain range (R6). -/
def Config.gainFull (c : Config) : Nat := gainMax * c.gainScale

/-- `GAIN_SCALE - 1` of the machine at reset: OPEN with no default (R6), so uninterpreted. Log entry 3. -/
opaque Config.openGainScalePred : Nat

/-- `RAMP_STEP - 1` of the machine at reset: OPEN with no default (R6), so uninterpreted. Log entry 3. -/
opaque Config.openRampStepPred : Nat

/-- `WAVE_ROM` of the machine at reset: OPEN, not in the source (R29), so uninterpreted. Log entry 3. -/
opaque Config.openWaveRom : Vector (Vector Sample 32) 8

/-- `CAPACITY_MAX - 1` of the machine at reset: OPEN with no default (R6), so uninterpreted. Log entry 3. -/
opaque Config.openCapacityMaxPred : Fin 4294967295

/-- `CB_LEN - 1` of the machine at reset: OPEN with no default (R6), so uninterpreted. Log entry 3. -/
opaque Config.openCbLenPred : Nat

/-- The configuration the machine is reset with: the defaults of R6, and an uninterpreted value (within R7) for each
parameter R6 gives no default. Log entry 3. -/
def Config.default : Config where
  sampleRate := 48000
  refRate := 24000
  phaseFrac := 15
  lookup := .linear
  gainScale := Config.openGainScalePred + 1
  rampStep := Config.openRampStepPred + 1
  dcCenter := 0#16
  waveRom := Config.openWaveRom
  capacityMax := ⟨⟨Config.openCapacityMaxPred.val + 1, by omega⟩⟩
  cbLen := Config.openCbLenPred + 1

end Sys2Proof
end

