-- ==== Sys2Proof/Machine/State.lean ====
section
/-! DEFINITION. The state of the block (10_state.md): `S = (RB, VMUTE, GU, MIX, RING, FAULT)`, and beside it the
model's own fields, which hold the parameters of the spec's step relation (R37): configuration, the two command
streams, the interleaving, and the responses sent. Also the reasons a step can stop, and the state after reset. -/

namespace Sys2Proof.Machine

/-- One value per voice: a register file of eight like registers, `x[0]` to `x[7]` (R20, R24, R26). -/
structure PerVoice (α : Type) where
  v0 : α
  v1 : α
  v2 : α
  v3 : α
  v4 : α
  v5 : α
  v6 : α
  v7 : α
deriving DecidableEq, Repr

/-- The same value for every voice. -/
def PerVoice.fill {α : Type} (x : α) : PerVoice α := ⟨x, x, x, x, x, x, x, x⟩

/-- A ChannelRegister, the (waveform, gain, frequency) input of one voice (R20). -/
structure ChannelRegister where
  wave : BitVec 3
  gain : BitVec 4
  freq : BitVec 20
deriving DecidableEq, Repr

/-- A GeneratorUnit, the synthesis state of one voice (R26). The integers are unbounded here (R10); their ranges are
an invariant of the step. Log entry 9. -/
structure GeneratorUnit where
  /-- Position within one waveform cycle, in units of `1/UNIT` waveform positions; `0 <= phase < PM`. -/
  phase : Nat
  /-- Fractional remainder of the phase, in units of `1/SAMPLE_RATE`; `0 <= drift < SAMPLE_RATE`. -/
  drift : Nat
  /-- Current gain; `0 <= cur <= G_FULL`. -/
  cur : Nat
  /-- Latched waveform id; `none` is the spec's NONE. -/
  lwave : Option (BitVec 3)
  /-- Latched frequency code. -/
  lfreq : BitVec 20
deriving DecidableEq, Repr

/-- A space of 16-bit samples (R50): (index, sample) pairs, indices strictly rising, no sample 0. An index not listed
reads 0. Log entry 8. -/
abbrev Memory := List (Nat × Sample)

/-- The audio ring buffer (R30). -/
structure Ring where
  /-- `open`: 1 once BUF_OPEN has succeeded. -/
  isOpen : Bool
  /-- Capacity in samples, 0 while closed. -/
  cap : BitVec 32
  /-- `data[0] .. data[cap - 1]`. -/
  data : Memory
  /-- Read position. -/
  current : Counter
  /-- Samples written and not yet read. -/
  remain : Counter
  /-- Callback count. -/
  called : Counter
  volume : BitVec 3
  mute : Bool
deriving DecidableEq, Repr

/-- The fault codes of R201. -/
inductive FaultCode where
  /-- Code 1: the header selects no row. -/
  | illegalCommand
  /-- Code 2: a reserved bit of an operand word is set. -/
  | reservedOperand
  /-- Code 3: a command on the port that does not accept it. -/
  | wrongPort
  /-- Code 4: the stream ends before all operand words have arrived. -/
  | truncated
  /-- Code 5: a ring command other than BUF_OPEN on a closed ring. -/
  | notOpen
  /-- Code 6: BUF_OPEN with capacity 0 or above CAPACITY_MAX. -/
  | badCapacity
  /-- Code 7: MIX_READ at or past BLOCK_LEN. -/
  | indexRange
  /-- Code 8: a 64-bit counter would pass `2^64 - 1`. -/
  | counterOverflow
deriving DecidableEq, Repr

/-- The fault record `(code, port, header)` (R33, R200). -/
structure FaultRecord where
  code : FaultCode
  port : Port
  header : Word
deriving DecidableEq, Repr

/-- The two word streams of a port (R80). MODEL's own: inputs and outputs, not state of the block (R37). -/
structure PortIO where
  /-- Words of the command stream not yet taken, next first; the stream ends where the list ends. Log entry 4. -/
  input : List Word
  /-- Response words sent so far, oldest first. Log entry 7. -/
  output : List Word
deriving DecidableEq, Repr

/-- The machine. The first six fields are the spec's `S` (10_state.md); the rest are the model's own (log entries 2,
4, 5, 6, 7). -/
structure State where
  /-- The RegisterBank `RB` (R20). -/
  rb : PerVoice ChannelRegister
  /-- The voice-mute flags `VMUTE` (R24). -/
  vmute : PerVoice Bool
  /-- The GeneratorUnits `GU` (R26). -/
  gu : PerVoice GeneratorUnit
  /-- The mix buffer `MIX`, indices `0 .. BLOCK_LEN - 1` (R31). -/
  mix : Memory
  /-- The ring buffer `RING` (R30). -/
  ring : Ring
  /-- The fault record `FAULT` (R33). -/
  fault : Option FaultRecord
  /-- MODEL's own: the configuration record (R6, R37), which no step changes. -/
  cfg : Config
  /-- MODEL's own: the producer port's streams. -/
  producer : PortIO
  /-- MODEL's own: the consumer port's streams. -/
  consumer : PortIO
  /-- MODEL's own: whose turn comes next, the interleaving of R61. -/
  schedule : List Port
  /-- MODEL's own: the port whose command is being executed. -/
  port : Port
deriving DecidableEq, Repr

/-- Why a step answers `fault`. The spec's own faults are not here: a command that raises one takes it, which is a
next state with FAULT written (R200; log entry 1). -/
inductive Fault where
  /-- Raised by BUF_WRITE, BUF_APPEND and READ_ONE on a ring that is open with capacity 0, where a position names no
  index (R51; R11 gives `mod` for a positive divisor only). No run from reset reaches such a ring. Safe: the model
  stops. Log entry 10. -/
  | emptyRing
deriving DecidableEq, Repr

/-- Why a step answers `refused`. -/
inductive Refusal where
  /-- Raised by exec for an instruction that has no meaning yet; no arm uses it now. Safe. -/
  | notModelled (mnemonic : String)
  /-- Raised by step when the configuration breaks a constraint of R7: "the configuration is ill-formed and the model
  refuses it". Safe. -/
  | illFormedConfig
deriving DecidableEq, Repr

/-- The ChannelRegister after reset: wave 0, gain 0, freq 0 (R36). -/
def ChannelRegister.zero : ChannelRegister := ⟨0#3, 0#4, 0#20⟩

/-- The idle GeneratorUnit, the state after reset and after silence (R36, R131). -/
def GeneratorUnit.idle : GeneratorUnit := ⟨0, 0, 0, none, 0#20⟩

/-- The ring after reset: closed, capacity 0, counters 0, volume 7, not muted (R36). -/
def Ring.closed : Ring := ⟨false, 0#32, [], 0#64, 0#64, 0#64, 7#3, false⟩

/-- A port on which no word has arrived and none has been sent. -/
def PortIO.idle : PortIO := ⟨[], []⟩

/-- The state after reset under a configuration (R36, R240): nothing in it depends on the configuration but the
configuration itself. -/
def State.resetWith (c : Config) : State where
  rb := PerVoice.fill ChannelRegister.zero
  vmute := PerVoice.fill false
  gu := PerVoice.fill GeneratorUnit.idle
  mix := []
  ring := Ring.closed
  fault := none
  cfg := c
  producer := PortIO.idle
  consumer := PortIO.idle
  schedule := []
  port := .producer

/-- The machine right after reset (R36, R240), under the default configuration (R6). -/
def State.reset : State := State.resetWith Config.default

end Sys2Proof.Machine
end

