-- ==== Sys2Proof/Machine/Operands.lean ====
section
/-! DEFINITION. The arithmetic primitives of R11, operand and response words (R88, R89, R95), and the position-to-index
map of the ring (R51). -/

namespace Sys2Proof.Machine

/-- `tdiv(a, b)`: the quotient of `a / b` truncated toward zero, for `b > 0` (R11). -/
def tdiv (a b : Int) : Int := Int.tdiv a b

/-- `asr(x, k) = floor(x / 2^k)` (R11). -/
def asr (x : Int) (k : Nat) : Int := x / 2 ^ k

/-- `sat16(x) = max(-32768, min(32767, x))` (R11). -/
def sat16 (x : Int) : Int := max (-32768) (min 32767 x)

/-- The 16-bit sample of an integer in `-32768 .. 32767`. -/
def sampleOf (x : Int) : Sample := BitVec.ofInt 16 x

/-- `sext_32(sample)`: the response word of a sample (R89). -/
def sext32 (x : Sample) : Word := x.signExtend 32

/-- The two response words of a counter, low 32 bits first (R89). -/
def counterWords (c : Counter) : List Word := [c.extractLsb' 0 32, c.extractLsb' 32 32]

/-- `zext_32(volume)` (R89). -/
def volumeWord (v : BitVec 3) : Word := v.setWidth 32

/-- `zext_32(mute)` (R89). -/
def muteWord (m : Bool) : Word := (BitVec.ofBool m).setWidth 32

/-- A reserved bit of the payload is set: `n` is odd and the upper half of the last payload word is not 0 (R88). -/
def payloadReserved (samples : List Sample) (pad : BitVec 16) : Bool := samples.length % 2 == 1 && pad != 0#16

/-- The largest value of a 64-bit counter, `2^64 - 1` (R201, R213). -/
def counterMax : Nat := 2 ^ 64 - 1

/-- The 64-bit counter that holds a value not above `counterMax`. -/
def counterOf (n : Nat) : Counter := BitVec.ofNat 64 n

/-- The write tail, `current + remain`, without a width limit (R32, R182). -/
def Ring.tail (r : Ring) : Nat := r.current.toNat + r.remain.toNat

/-- The index an absolute position names, `p mod cap` (R51); none where the ring has no element. -/
def Ring.index (r : Ring) (p : Nat) : Option Nat := if r.cap = 0#32 then none else some (p % r.cap.toNat)

/-! ### Register files of one value per voice (R12) -/

/-- `x[v]` (R12). -/
def PerVoice.get {α : Type} (x : PerVoice α) : Voice → α
  | 0 => x.v0
  | 1 => x.v1
  | 2 => x.v2
  | 3 => x.v3
  | 4 => x.v4
  | 5 => x.v5
  | 6 => x.v6
  | 7 => x.v7

/-- `x[v] <- a` (R12). -/
def PerVoice.set {α : Type} (x : PerVoice α) (v : Voice) (a : α) : PerVoice α :=
  match v with
  | 0 => { x with v0 := a }
  | 1 => { x with v1 := a }
  | 2 => { x with v2 := a }
  | 3 => { x with v3 := a }
  | 4 => { x with v4 := a }
  | 5 => { x with v5 := a }
  | 6 => { x with v6 := a }
  | 7 => { x with v7 := a }

/-- The file whose element `v` is `f v`. -/
def PerVoice.of {α : Type} (f : Voice → α) : PerVoice α := ⟨f 0, f 1, f 2, f 3, f 4, f 5, f 6, f 7⟩

end Sys2Proof.Machine
end

