-- ==== Sys2Proof/Machine/Flags.lean ====
section
/-! DEFINITION. The flags. The block has no condition codes (R25): its flags are VMUTE, RING.mute, RING.open and FAULT.
Here are the tests commands make of them, the port and range checks behind the fault codes of R201, and the read-time
attenuation the mute flag and the volume decide (R191). -/

namespace Sys2Proof.Machine

/-- A halted block: FAULT is not NONE (R200). -/
def State.halted (s : State) : Bool := s.fault.isSome

/-- The number R201 gives a fault code. -/
def FaultCode.number : FaultCode → Nat
  | .illegalCommand => 1
  | .reservedOperand => 2
  | .wrongPort => 3
  | .truncated => 4
  | .notOpen => 5
  | .badCapacity => 6
  | .indexRange => 7
  | .counterOverflow => 8

/-- BAD_CAPACITY: `cap = 0 or cap > CAPACITY_MAX` (R160). -/
def badCapacity (c : Config) (cap : BitVec 32) : Bool := cap.toNat == 0 || c.capacityMax.toNat < cap.toNat

/-- INDEX_RANGE: `k >= BLOCK_LEN` (R144). -/
def indexOutOfRange (c : Config) (k : BitVec 16) : Bool := c.blockLen ≤ k.toNat

/-- COUNTER_OVERFLOW of adding `n`: the sum would pass `2^64 - 1` (R180, R190, R193). -/
def counterOverflows (x : Counter) (n : Nat) : Bool := counterMax < x.toNat + n

/-- `Atten(x)` of R191: mute and volume 0 silence, volume 7 passes, volumes 1 to 6 shift right by `7 - volume`. -/
def Ring.attenuate (r : Ring) (x : Sample) : Sample :=
  if r.mute then 0#16
  else if r.volume = 0#3 then 0#16
  else if r.volume = 7#3 then x
  else sampleOf (asr x.toInt (7 - r.volume.toNat))

end Sys2Proof.Machine
end

