-- ==== Sys2Proof/Machine/Ops.lean ====
section
/-! DEFINITION. The named operations over memory, registers and ports, and taking a fault as one shared operation
(R200). There is no return from a fault (R205): only reset, `State.reset`. -/

namespace Sys2Proof.Machine

/-! ### Sample memory (R12, R50) -/

/-- The canonical form: indices strictly rising, and no listed sample equal to 0, what an unlisted index reads as. -/
def Memory.wf (m : Memory) : Bool := decide (m.Pairwise fun a b => a.1 < b.1) && m.all fun c => c.2 != 0#16

/-- `MemRead(space, i, 1)` (R12). -/
def Memory.read : Memory → Nat → Sample
  | [], _ => 0#16
  | (j, x) :: m, i => if j = i then x else Memory.read m i

/-- A pair put in front of a canonical memory that lists only higher indices. -/
def Memory.cons (i : Nat) (x : Sample) (m : Memory) : Memory := if x = 0#16 then m else (i, x) :: m

/-- `MemWrite(space, i, 1, x)` (R12), keeping the canonical form. -/
def Memory.write : Memory → Nat → Sample → Memory
  | [], i, x => Memory.cons i x []
  | (j, y) :: m, i, x =>
    if i < j then Memory.cons i x ((j, y) :: m)
    else if i = j then Memory.cons i x m
    else (j, y) :: Memory.write m i x

/-- The space whose elements from `k` on are a list's samples, all others 0. -/
def Memory.ofSamplesFrom : Nat → List Sample → Memory
  | _, [] => []
  | k, x :: xs => Memory.cons k x (Memory.ofSamplesFrom (k + 1) xs)

/-- The space whose elements `0 ..` are a list's samples. -/
def Memory.ofSamples (xs : List Sample) : Memory := Memory.ofSamplesFrom 0 xs

/-- The writes `MemWrite(RING, (b + j) mod cap, 1, s[j])` in increasing `j`, from `j` on (R180). -/
def Memory.storeWrapped (cap b : Nat) : Nat → List Sample → Memory → Memory
  | _, [], m => m
  | j, x :: xs, m => Memory.storeWrapped cap b (j + 1) xs (m.write ((b + j) % cap) x)

/-! ### Register files and ports -/

/-- `RB[ch] <- r` (R12, R120). -/
def State.setRegister (s : State) (ch : Voice) (r : ChannelRegister) : State := { s with rb := s.rb.set ch r }

/-- `VMUTE[ch] <- m` (R12, R121). -/
def State.setVoiceMute (s : State) (ch : Voice) (m : Bool) : State := { s with vmute := s.vmute.set ch m }

/-- The GeneratorUnits and the mix buffer after a GENERATE (R130). -/
def State.setBlock (s : State) (gu : PerVoice GeneratorUnit) (mix : Memory) : State := { s with gu := gu, mix := mix }

/-- `RING <- r`. -/
def State.setRing (s : State) (r : Ring) : State := { s with ring := r }

/-- The streams of a port (R80). -/
def State.io (s : State) : Port → PortIO
  | .producer => s.producer
  | .consumer => s.consumer

/-- The streams of a port replaced. -/
def State.setIO (s : State) (p : Port) (io : PortIO) : State :=
  match p with
  | .producer => { s with producer := io }
  | .consumer => { s with consumer := io }

/-- The words of a port's stream not yet taken become `ws`. -/
def State.setInput (s : State) (p : Port) (ws : List Word) : State := s.setIO p { s.io p with input := ws }

/-- `respond(...)`: response words on the port that issued the command, in order (R12, R89). -/
def State.respond (s : State) (ws : List Word) : State :=
  s.setIO s.port { s.io s.port with output := (s.io s.port).output ++ ws }

/-! ### Taking a fault (R200) -/

/-- `FAULT <- (code, port, H)`, where `port` is the port the command arrived on, and nothing else: none of the
command's writes, no response (R200, R204). -/
def State.takeFault (s : State) (code : FaultCode) (header : Word) : State :=
  { s with fault := some ⟨code, s.port, header⟩ }

/-- `raise Fault(code)` by a command (R12, R200). -/
def raiseFault (i : Instr) (s : State) (code : FaultCode) : Host.Outcome State Fault Refusal :=
  .next (s.takeFault code i.header)

/-- A command on its own port goes on; on the other it raises WRONG_PORT (R207). -/
def onItsPort (i : Instr) (s : State) (go : Host.Outcome State Fault Refusal) : Host.Outcome State Fault Refusal :=
  if s.port = i.port then go else raiseFault i s .wrongPort

/-- A command whose reserved operand bits are clear goes on; else it raises RESERVED_OPERAND (R85, R88). -/
def whenUnreserved (i : Instr) (s : State) (reservedSet : Bool) (go : Host.Outcome State Fault Refusal) :
    Host.Outcome State Fault Refusal :=
  if reservedSet then raiseFault i s .reservedOperand else go

/-- A ring command on an open ring goes on; on a closed one it raises NOT_OPEN (R201). -/
def whenOpen (i : Instr) (s : State) (go : Host.Outcome State Fault Refusal) : Host.Outcome State Fault Refusal :=
  if s.ring.isOpen then go else raiseFault i s .notOpen

/-! ### Ring operations shared by commands -/

/-- The ring BUF_OPEN leaves (R160). -/
def Ring.opened (cap : BitVec 32) : Ring := ⟨true, cap, [], 0#64, 0#64, 0#64, 7#3, false⟩

/-- The ring BUF_FILL_SILENT leaves: every sample 0, `current` 0, `remain` the capacity (R162). -/
def Ring.silenced (r : Ring) : Ring := { r with data := [], current := 0#64, remain := counterOf r.cap.toNat }

/-- The ring after `samples` are stored from index `b` on, wrapping, and counted (R180). -/
def Ring.stored (r : Ring) (b : Nat) (samples : List Sample) : Ring :=
  { r with
    data := Memory.storeWrapped r.cap.toNat b 0 samples r.data
    remain := counterOf (r.remain.toNat + samples.length) }

/-- The pseudocode of R180, shared by BUF_WRITE and BUF_APPEND: store `samples` at absolute position `offset`. -/
def storeAt (i : Instr) (s : State) (offset : Nat) (samples : List Sample) : Host.Outcome State Fault Refusal :=
  if counterOverflows s.ring.remain samples.length then raiseFault i s .counterOverflow
  else
    match s.ring.index offset with
    | none => .fault .emptyRing
    | some b => .next (s.setRing (s.ring.stored b samples))

/-- The ring after one sample has been read: `current + 1`, `remain - 1` (R190). -/
def Ring.advanced (r : Ring) : Ring :=
  { r with current := counterOf (r.current.toNat + 1), remain := counterOf (r.remain.toNat - 1) }

/-- A producer accessor of the open ring: it responds and changes no other state (R57, R166 to R170). -/
def respondOpen (i : Instr) (s : State) (ws : List Word) : Host.Outcome State Fault Refusal :=
  onItsPort i s (whenOpen i s (.next (s.respond ws)))

end Sys2Proof.Machine
end

