-- ==== Sys2Proof/Machine/Consumer.lean ====
section
/-! DEFINITION. The consumer port (44_consumer.md): READ_ONE and CALLBACK_DONE. -/

namespace Sys2Proof.Machine

/-- READ_ONE (R190): silence on an underrun, with no change (R192); else COUNTER_OVERFLOW at the last position, else
the attenuated sample at `current mod cap`, and one step on. -/
def execReadOne (s : State) : Host.Outcome State Fault Refusal :=
  onItsPort .readOne s <| whenOpen .readOne s <|
    if s.ring.remain = 0#64 then .next (s.respond [0#32])
    else if counterOverflows s.ring.current 1 then raiseFault .readOne s .counterOverflow
    else
      match s.ring.index s.ring.current.toNat with
      | none => .fault .emptyRing
      | some k =>
        .next ((s.setRing s.ring.advanced).respond [sext32 (s.ring.attenuate (Memory.read s.ring.data k))])

/-- CALLBACK_DONE (R193): `called + 1`, or COUNTER_OVERFLOW at `2^64 - 1`. -/
def execCallbackDone (s : State) : Host.Outcome State Fault Refusal :=
  onItsPort .callbackDone s <| whenOpen .callbackDone s <|
    if counterOverflows s.ring.called 1 then raiseFault .callbackDone s .counterOverflow
    else .next (s.setRing { s.ring with called := counterOf (s.ring.called.toNat + 1) })

end Sys2Proof.Machine
end

