-- ==== Sys2Proof/Machine/Registers.lean ====
section
/-! DEFINITION. The synthesizer register commands (40_synth_registers.md): CH_WRITE, VOICE_MUTE. -/

namespace Sys2Proof.Machine

/-- CH_WRITE (R120): RESERVED_OPERAND if `W[31:27] != 0`, else `RB[ch] <- {wave, gain, freq}`, all three fields. -/
def execChWrite (ch : Voice) (reserved : BitVec 5) (wave : BitVec 3) (gain : BitVec 4) (freq : BitVec 20) (s : State) :
    Host.Outcome State Fault Refusal :=
  let i := Instr.chWrite ch reserved wave gain freq
  onItsPort i s <| whenUnreserved i s (reserved != 0#5) <| .next (s.setRegister ch ⟨wave, gain, freq⟩)

/-- VOICE_MUTE (R121): `VMUTE[ch] <- m`. -/
def execVoiceMute (ch : Voice) (m : Bool) (s : State) : Host.Outcome State Fault Refusal :=
  onItsPort (.voiceMute ch m) s <| .next (s.setVoiceMute ch m)

end Sys2Proof.Machine
end

