-- ==== Sys2Proof/Machine/RingControl.lean ====
section
/-! DEFINITION. Ring buffer control and accessors (42_ringbuf_control.md). Every command but BUF_OPEN first raises
NOT_OPEN on a closed ring. -/

namespace Sys2Proof.Machine

/-- BUF_OPEN (R160): BAD_CAPACITY, else a zero-filled ring with all counters 0, volume 7, not muted. -/
def execBufOpen (cap : BitVec 32) (s : State) : Host.Outcome State Fault Refusal :=
  onItsPort (.bufOpen cap) s <|
    if badCapacity s.cfg cap then raiseFault (.bufOpen cap) s .badCapacity
    else .next (s.setRing (Ring.opened cap))

/-- BUF_FILL_SILENT (R162). -/
def execBufFillSilent (s : State) : Host.Outcome State Fault Refusal :=
  onItsPort .bufFillSilent s <| whenOpen .bufFillSilent s <| .next (s.setRing s.ring.silenced)

/-- BUF_SET_VOLUME (R164): `RING.volume <- v`. -/
def execBufSetVolume (v : BitVec 3) (s : State) : Host.Outcome State Fault Refusal :=
  onItsPort (.bufSetVolume v) s <| whenOpen (.bufSetVolume v) s <| .next (s.setRing { s.ring with volume := v })

/-- BUF_SET_MUTE (R165): `RING.mute <- m`. -/
def execBufSetMute (m : Bool) (s : State) : Host.Outcome State Fault Refusal :=
  onItsPort (.bufSetMute m) s <| whenOpen (.bufSetMute m) s <| .next (s.setRing { s.ring with mute := m })

/-- BUF_GET_CURRENT (R166): two words, low then high. -/
def execBufGetCurrent (s : State) : Host.Outcome State Fault Refusal :=
  respondOpen .bufGetCurrent s (counterWords s.ring.current)

/-- BUF_GET_REMAIN (R167): two words, low then high. -/
def execBufGetRemain (s : State) : Host.Outcome State Fault Refusal :=
  respondOpen .bufGetRemain s (counterWords s.ring.remain)

/-- BUF_GET_CALLED (R168): two words, low then high. -/
def execBufGetCalled (s : State) : Host.Outcome State Fault Refusal :=
  respondOpen .bufGetCalled s (counterWords s.ring.called)

/-- BUF_GET_VOLUME (R169): one word. -/
def execBufGetVolume (s : State) : Host.Outcome State Fault Refusal :=
  respondOpen .bufGetVolume s [volumeWord s.ring.volume]

/-- BUF_GET_MUTE (R170): one word. -/
def execBufGetMute (s : State) : Host.Outcome State Fault Refusal :=
  respondOpen .bufGetMute s [muteWord s.ring.mute]

end Sys2Proof.Machine
end

