-- ==== Sys2Proof/Machine/RingData.lean ====
section
/-! DEFINITION. Ring buffer writes (43_ringbuf_data.md): BUF_WRITE and BUF_APPEND. Each is one atomic store of all its
samples (R56). Faults in the order RESERVED_OPERAND, NOT_OPEN, COUNTER_OVERFLOW (R203). -/

namespace Sys2Proof.Machine

/-- BUF_WRITE (R180): the samples from absolute position `offset` on. -/
def execBufWrite (offset : BitVec 64) (samples : List Sample) (pad : BitVec 16) (s : State) :
    Host.Outcome State Fault Refusal :=
  let i := Instr.bufWrite offset samples pad
  onItsPort i s <| whenUnreserved i s (payloadReserved samples pad) <| whenOpen i s <|
    storeAt i s offset.toNat samples

/-- BUF_APPEND (R182): the samples from the write tail `current + remain` on. -/
def execBufAppend (samples : List Sample) (pad : BitVec 16) (s : State) : Host.Outcome State Fault Refusal :=
  let i := Instr.bufAppend samples pad
  onItsPort i s <| whenUnreserved i s (payloadReserved samples pad) <| whenOpen i s <|
    storeAt i s s.ring.tail samples

end Sys2Proof.Machine
end

