-- ==== Sys2Proof/Machine/Synth.lean ====
section
/-! DEFINITION. Synthesis (41_synth_generate.md): the per-voice step `VoiceSample` (R131 to R139), the mix (R140),
GENERATE (R130) and MIX_READ (R144). Every intermediate value is an exact integer (R146). -/

namespace Sys2Proof.Machine

/-! ### VoiceSample, rule by rule: `g` the GeneratorUnit, `r` the register snapshot, `m` the mute bit -/

/-- The silence test of R131: register gain 0 and current gain 0. The mute bit plays no part. -/
def isSilent (r : ChannelRegister) (g : GeneratorUnit) : Bool := r.gain == 0#4 && g.cur == 0

/-- The specified gain `spec` (R132). -/
def specGain (c : Config) (r : ChannelRegister) (m : Bool) : Nat := if m then 0 else r.gain.toNat * c.gainScale

/-- The gain ramp `cur'` (R133). -/
def rampGain (c : Config) (cur spec : Nat) : Nat :=
  if cur < spec then min (cur + c.rampStep) spec
  else if spec < cur then max (cur - c.rampStep) spec
  else cur

/-- `t` of R135: drift plus the advance in units of `1/SAMPLE_RATE`. -/
def advanceTotal (c : Config) (r : ChannelRegister) (g : GeneratorUnit) : Nat := g.drift + r.freq.toNat * c.refRate

/-- `raw` of R135: the phase before it is reduced. -/
def rawPhase (c : Config) (r : ChannelRegister) (g : GeneratorUnit) : Nat :=
  g.phase + advanceTotal c r g / c.sampleRate

/-- `drift'` of R135. -/
def nextDrift (c : Config) (r : ChannelRegister) (g : GeneratorUnit) : Nat := advanceTotal c r g % c.sampleRate

/-- `wrapped` of R135: the advance completes a cycle. -/
def wraps (c : Config) (r : ChannelRegister) (g : GeneratorUnit) : Bool := c.phaseMod ≤ rawPhase c r g

/-- `phase'` of R135. -/
def nextPhase (c : Config) (r : ChannelRegister) (g : GeneratorUnit) : Nat := rawPhase c r g % c.phaseMod

/-- `lwave'` of R136: the register's waveform on a start from silence or on a wrap, else the latched one. -/
def nextWave (c : Config) (r : ChannelRegister) (g : GeneratorUnit) : BitVec 3 :=
  match g.lwave with
  | none => r.wave
  | some w => if wraps c r g then r.wave else w

/-- `WAVE_ROM[w][i]` as an integer (R29). Positions are 0..31; the lookups below pass no other. Log entry 20. -/
def romSample (c : Config) (w : BitVec 3) (i : Nat) : Int := ((c.waveRom[w.toFin])[i]?.getD 0#16).toInt

/-- The lookup in mode FLOOR (R137). -/
def lookupFloor (c : Config) (w : BitVec 3) (phase : Nat) : Int := romSample c w (phase / c.phaseUnit)

/-- The lookup in mode LINEAR (R138): interpolation between a position and the next of the same table, the fraction
exact with the drift, truncated toward zero. -/
def lookupLinear (c : Config) (w : BitVec 3) (phase drift : Nat) : Int :=
  let pos := phase / c.phaseUnit
  let nxt := (pos + 1) % waveLen
  let fu := (phase % c.phaseUnit) * c.sampleRate + drift
  romSample c w pos + tdiv ((romSample c w nxt - romSample c w pos) * fu) c.fracDenom

/-- The looked-up sample `s`, by the configured mode (R137, R138). -/
def lookup (c : Config) (w : BitVec 3) (phase drift : Nat) : Int :=
  match c.lookup with
  | .floor => lookupFloor c w phase
  | .linear => lookupLinear c w phase drift

/-- The gain multiply (R139). -/
def scaleByGain (c : Config) (x : Int) (cur : Nat) : Int := tdiv (x * cur) c.gainFull

/-- The GeneratorUnit a sounding voice writes back (R133 to R136, R139). -/
def soundingUnit (c : Config) (r : ChannelRegister) (m : Bool) (g : GeneratorUnit) : GeneratorUnit where
  phase := nextPhase c r g
  drift := nextDrift c r g
  cur := rampGain c g.cur (specGain c r m)
  lwave := some (nextWave c r g)
  lfreq := r.freq

/-- The output of a sounding voice (R137 to R139): it uses the primed values. -/
def soundingOut (c : Config) (r : ChannelRegister) (m : Bool) (g : GeneratorUnit) : Int :=
  scaleByGain c (lookup c (nextWave c r g) (nextPhase c r g) (nextDrift c r g)) (rampGain c g.cur (specGain c r m))

/-- `VoiceSample(v, r, m)`: output and next GeneratorUnit of one voice for one sample (R131 to R139). -/
def voiceSample (c : Config) (r : ChannelRegister) (m : Bool) (g : GeneratorUnit) : Int × GeneratorUnit :=
  if isSilent r g then (0, GeneratorUnit.idle) else (soundingOut c r m g, soundingUnit c r m g)

/-! ### The mix and the block -/

/-- `Mix(o)` (R140): fixed average of eight, truncated, plus DC centre, saturated. -/
def mixOf (c : Config) (o : Voice → Int) : Sample :=
  sampleOf (sat16 (tdiv (o 0 + o 1 + o 2 + o 3 + o 4 + o 5 + o 6 + o 7) 8 + c.dcCenter.toInt))

/-- `MIX[k]` of R130, from the GeneratorUnits before sample `k`: the mix of every voice's output. -/
def frameSample (c : Config) (rb : PerVoice ChannelRegister) (vm : PerVoice Bool) (gu : PerVoice GeneratorUnit) :
    Sample :=
  mixOf c fun v => (voiceSample c (rb.get v) (vm.get v) (gu.get v)).1

/-- The GeneratorUnits the inner loop of R130 writes back for one sample. -/
def frameUnits (c : Config) (rb : PerVoice ChannelRegister) (vm : PerVoice Bool) (gu : PerVoice GeneratorUnit) :
    PerVoice GeneratorUnit :=
  PerVoice.of fun v => (voiceSample c (rb.get v) (vm.get v) (gu.get v)).2

/-- The outer loop of R130 for `n` samples: the mixed samples and the GeneratorUnits at the end. -/
def generateBlock (c : Config) (rb : PerVoice ChannelRegister) (vm : PerVoice Bool) :
    Nat → PerVoice GeneratorUnit → List Sample × PerVoice GeneratorUnit
  | 0, gu => ([], gu)
  | n + 1, gu =>
    let rest := generateBlock c rb vm n (frameUnits c rb vm gu)
    (frameSample c rb vm gu :: rest.1, rest.2)

/-- GENERATE (R130): one block of `BLOCK_LEN` samples from the snapshot of RB and VMUTE. -/
def execGenerate (s : State) : Host.Outcome State Fault Refusal :=
  onItsPort .generate s <|
    let block := generateBlock s.cfg s.rb s.vmute s.cfg.blockLen s.gu
    .next (s.setBlock block.2 (Memory.ofSamples block.1))

/-- MIX_READ (R144): INDEX_RANGE if `k >= BLOCK_LEN`, else respond with sample `k` of the last block. -/
def execMixRead (k : BitVec 16) (s : State) : Host.Outcome State Fault Refusal :=
  onItsPort (.mixRead k) s <|
    if indexOutOfRange s.cfg k then raiseFault (.mixRead k) s .indexRange
    else .next (s.respond [sext32 (Memory.read s.mix k.toNat)])

end Sys2Proof.Machine
end

