-- ==== Sys2Proof/Machine/Dispatch.lean ====
section
/-! DEFINITION. The meaning of a command at a state: one arm per constructor of `Instr` (R90). -/

namespace Sys2Proof.Machine

def exec (i : Instr) (s : State) : Host.Outcome State Fault Refusal :=
  match i with
  | .chWrite ch reserved wave gain freq => Sys2Proof.Machine.execChWrite ch reserved wave gain freq s
  | .voiceMute ch m => Sys2Proof.Machine.execVoiceMute ch m s
  | .generate => Sys2Proof.Machine.execGenerate s
  | .mixRead k => Sys2Proof.Machine.execMixRead k s
  | .bufOpen cap => Sys2Proof.Machine.execBufOpen cap s
  | .bufWrite offset samples pad => Sys2Proof.Machine.execBufWrite offset samples pad s
  | .bufAppend samples pad => Sys2Proof.Machine.execBufAppend samples pad s
  | .bufFillSilent => Sys2Proof.Machine.execBufFillSilent s
  | .bufSetVolume v => Sys2Proof.Machine.execBufSetVolume v s
  | .bufSetMute m => Sys2Proof.Machine.execBufSetMute m s
  | .bufGetCurrent => Sys2Proof.Machine.execBufGetCurrent s
  | .bufGetRemain => Sys2Proof.Machine.execBufGetRemain s
  | .bufGetCalled => Sys2Proof.Machine.execBufGetCalled s
  | .bufGetVolume => Sys2Proof.Machine.execBufGetVolume s
  | .bufGetMute => Sys2Proof.Machine.execBufGetMute s
  | .readOne => Sys2Proof.Machine.execReadOne s
  | .callbackDone => Sys2Proof.Machine.execCallbackDone s

end Sys2Proof.Machine
end

