-- ==== Sys2Proof/Machine/Fetch.lean ====
section
/-! DEFINITION. Taking the next command. The block has no program counter (R22): it takes the commands its two ports
deliver, one at a time, in one total order (R60, R61), which `schedule` gives. -/

namespace Sys2Proof.Machine

/-- What the block finds to do. -/
inductive Arrival where
  /-- Nothing to run: halted, no turn left, or a turn of a port with no command; the state the step leaves. -/
  | idle (s : State)
  /-- The words at the port make no complete command: the state with the fault taken. -/
  | raised (s : State)
  /-- A complete command, and the state it runs on: its words taken, its port the current one. -/
  | command (i : Instr) (s : State)
deriving DecidableEq, Repr

/-- The fault of a header whose command cannot be formed, in the order of R203: ILLEGAL_COMMAND from the header alone,
then WRONG_PORT, then TRUNCATED. -/
def arrivalFault (p : Port) (h : Word) : FaultCode :=
  match selectRow h with
  | none => .illegalCommand
  | some r => if r.port = p then .truncated else .wrongPort

/-- The turn of a port begins: it leaves the schedule, and the port becomes the current one. -/
def State.turnOf (s : State) (p : Port) (turns : List Port) : State := { s with schedule := turns, port := p }

/-- A turn of port `p`: its next command, or the fault its words raise (R80, R92, R93, R203). Log entries 5, 11. -/
def takeTurn (s : State) (p : Port) (turns : List Port) : Arrival :=
  match (s.io p).input with
  | [] => .idle { s with schedule := turns }
  | h :: ws =>
    match decode (h :: ws) with
    | .ok (i, rest) => .command i ((s.turnOf p turns).setInput p rest)
    | .error _ => .raised (((s.turnOf p turns).setInput p ws).takeFault (arrivalFault p h) h)

/-- What the block does next. A halted block takes no command on either port (R200); with no turn left it waits
(log entry 5). -/
def arrive (s : State) : Arrival :=
  if s.halted then .idle s
  else
    match s.schedule with
    | [] => .idle s
    | p :: turns => takeTurn s p turns

/-- Words put at the head of a port's stream, with its turn next. -/
def State.offer (s : State) (p : Port) (ws : List Word) : State :=
  { s.setInput p (ws ++ (s.io p).input) with schedule := p :: s.schedule }

/-- The port column of the row a header selects (R90); the producer's for an illegal header. -/
def portOfHeader (h : Word) : Port :=
  match selectRow h with
  | some r => r.port
  | none => .producer

/-- A state with the instruction of the opcode table whose bits are `w` next to be taken: its words at the head of the
stream of the port that accepts it, and that port's turn next. Log entry 12. -/
def State.offerTableWord (s : State) (nbits w : Nat) : State :=
  match tableWords nbits w with
  | [] => s
  | h :: ws => s.offer (portOfHeader h) (h :: ws)

end Sys2Proof.Machine
end

