-- ==== Sys2Proof/Machine/Step.lean ====
section
/-! DEFINITION. One step of the block: one command of one port, atomically (R13, R60). -/

namespace Sys2Proof.Machine

/-- One transition. An ill-formed configuration is refused (R7); otherwise the next command runs, or the block is
halted, waits, or takes the fault of words that make no command. -/
def step (s : State) : Host.Outcome State Fault Refusal :=
  if s.cfg.wf then
    match arrive s with
    | .idle t => .next t
    | .raised t => .next t
    | .command i t => exec i t
  else .refused .illFormedConfig

/-- `s` with the instruction whose bits are `w` stored where `step` takes its next instruction. -/
def State.withFetchWord (s : State) (nbits w : Nat) : State := s.offerTableWord nbits w

end Sys2Proof.Machine
end

