-- ==== Sys2Proof/Machine/Assembler.lean ====
section
/-! DEFINITION. The assembler of R96: one command per line, with numeric operands, refused rather than truncated when a
value is outside its range. Its words are `encode` of the command it answers. -/

namespace Sys2Proof.Machine

/-- A source line of R96: mnemonic and operands, any numbers. -/
inductive SourceLine where
  | chWrite (ch wave gain freq : Nat)
  | voiceMute (ch m : Nat)
  | generate
  | mixRead (k : Nat)
  | bufOpen (cap : Nat)
  | bufWrite (offset : Nat) (samples : List Int)
  | bufAppend (samples : List Int)
  | bufFillSilent
  | bufSetVolume (v : Nat)
  | bufSetMute (m : Nat)
  | bufGetCurrent
  | bufGetRemain
  | bufGetCalled
  | bufGetVolume
  | bufGetMute
  | readOne
  | callbackDone
deriving DecidableEq, Repr

/-- A voice operand, 0..7. -/
def asmVoice (ch : Nat) : Option Voice := if h : ch < 8 then some ⟨ch, h⟩ else none

/-- A field operand of `w` bits. -/
def asmField (w n : Nat) : Option (BitVec w) := if n < 2 ^ w then some (BitVec.ofNat w n) else none

/-- A mute operand, 0 or 1. -/
def asmFlag (m : Nat) : Option Bool := if m = 0 then some false else if m = 1 then some true else none

/-- A sample operand, -32768..32767. -/
def asmSample (x : Int) : Option Sample := if -32768 ≤ x ∧ x ≤ 32767 then some (BitVec.ofInt 16 x) else none

/-- A bracketed sample list, at most 65535 samples. -/
def asmSamples (xs : List Int) : Option (List Sample) := if xs.length ≤ 65535 then xs.mapM asmSample else none

/-- The command a source line stands for (R96); none where the assembler refuses a field value. -/
def assemble : SourceLine → Option Instr
  | .chWrite ch wave gain freq => do
    some (.chWrite (← asmVoice ch) 0#5 (← asmField 3 wave) (← asmField 4 gain) (← asmField 20 freq))
  | .voiceMute ch m => do some (.voiceMute (← asmVoice ch) (← asmFlag m))
  | .generate => some .generate
  | .mixRead k => do some (.mixRead (← asmField 16 k))
  | .bufOpen cap => do some (.bufOpen (← asmField 32 cap))
  | .bufWrite offset samples => do some (.bufWrite (← asmField 64 offset) (← asmSamples samples) 0#16)
  | .bufAppend samples => do some (.bufAppend (← asmSamples samples) 0#16)
  | .bufFillSilent => some .bufFillSilent
  | .bufSetVolume v => do some (.bufSetVolume (← asmField 3 v))
  | .bufSetMute m => do some (.bufSetMute (← asmFlag m))
  | .bufGetCurrent => some .bufGetCurrent
  | .bufGetRemain => some .bufGetRemain
  | .bufGetCalled => some .bufGetCalled
  | .bufGetVolume => some .bufGetVolume
  | .bufGetMute => some .bufGetMute
  | .readOne => some .readOne
  | .callbackDone => some .callbackDone

/-! ### The text of a line (R96): blanks separate, commas and brackets stand for themselves. Log entry 19. -/

/-- A token of a source line. -/
inductive Token where
  | comma
  | opening
  | closing
  | atom (cs : List Char)
deriving DecidableEq, Repr

/-- A finished atom in front of the tokens after it; an empty one is no token. -/
def atomThen (cs : List Char) (ts : List Token) : List Token := if cs.isEmpty then ts else .atom cs :: ts

/-- The tokens of a line; `cs` is the atom read so far. -/
def tokens (cs : List Char) : List Char → List Token
  | [] => atomThen cs []
  | c :: rest =>
    if c = ' ' then atomThen cs (tokens [] rest)
    else if c = ',' then atomThen cs (.comma :: tokens [] rest)
    else if c = '[' then atomThen cs (.opening :: tokens [] rest)
    else if c = ']' then atomThen cs (.closing :: tokens [] rest)
    else tokens (cs ++ [c]) rest

/-- A decimal digit. -/
def decimalDigit (c : Char) : Option Nat :=
  if '0'.toNat ≤ c.toNat ∧ c.toNat ≤ '9'.toNat then some (c.toNat - '0'.toNat) else none

/-- A hexadecimal digit of either case. -/
def hexDigit (c : Char) : Option Nat :=
  match decimalDigit c with
  | some d => some d
  | none =>
    if 'a'.toNat ≤ c.toNat ∧ c.toNat ≤ 'f'.toNat then some (c.toNat - 'a'.toNat + 10)
    else if 'A'.toNat ≤ c.toNat ∧ c.toNat ≤ 'F'.toNat then some (c.toNat - 'A'.toNat + 10)
    else none

/-- The number a digit list goes on to, after `n`. -/
def digitsFrom (digit : Char → Option Nat) (base n : Nat) : List Char → Option Nat
  | [] => some n
  | c :: cs =>
    match digit c with
    | some d => digitsFrom digit base (n * base + d) cs
    | none => none

/-- A number, decimal or `0x` hexadecimal. -/
def parseNumber : List Char → Option Nat
  | [] => none
  | '0' :: 'x' :: c :: cs => digitsFrom hexDigit 16 0 (c :: cs)
  | c :: cs => digitsFrom decimalDigit 10 0 (c :: cs)

/-- A sample: decimal with an optional minus sign. -/
def parseSample : List Char → Option Int
  | [] => none
  | '-' :: c :: cs => (digitsFrom decimalDigit 10 0 (c :: cs)).map fun n => -(n : Int)
  | c :: cs => (digitsFrom decimalDigit 10 0 (c :: cs)).map fun n => (n : Int)

/-- The samples after the first of a bracketed list, to its end. -/
def parseSamplesRest : List Token → Option (List Int)
  | [.closing] => some []
  | .comma :: .atom x :: ts => do some ((← parseSample x) :: (← parseSamplesRest ts))
  | _ => none

/-- A bracketed sample list that ends the line. -/
def parseSamples : List Token → Option (List Int)
  | [.opening, .closing] => some []
  | .opening :: .atom x :: ts => do some ((← parseSample x) :: (← parseSamplesRest ts))
  | _ => none

/-- Numbers separated by commas that end the line. -/
def parseNumbers : List Token → Option (List Nat)
  | [] => some []
  | [.atom x] => do some [← parseNumber x]
  | .atom x :: .comma :: t :: ts => do some ((← parseNumber x) :: (← parseNumbers (t :: ts)))
  | _ => none

/-- The line of a mnemonic whose operands are numbers (R96). -/
def numericLine (mnemonic : String) (operands : List Nat) : Option SourceLine :=
  match mnemonic, operands with
  | "CH_WRITE", [ch, wave, gain, freq] => some (.chWrite ch wave gain freq)
  | "VOICE_MUTE", [ch, m] => some (.voiceMute ch m)
  | "GENERATE", [] => some .generate
  | "MIX_READ", [k] => some (.mixRead k)
  | "BUF_OPEN", [cap] => some (.bufOpen cap)
  | "BUF_FILL_SILENT", [] => some .bufFillSilent
  | "BUF_SET_VOLUME", [v] => some (.bufSetVolume v)
  | "BUF_SET_MUTE", [m] => some (.bufSetMute m)
  | "BUF_GET_CURRENT", [] => some .bufGetCurrent
  | "BUF_GET_REMAIN", [] => some .bufGetRemain
  | "BUF_GET_CALLED", [] => some .bufGetCalled
  | "BUF_GET_VOLUME", [] => some .bufGetVolume
  | "BUF_GET_MUTE", [] => some .bufGetMute
  | "READ_ONE", [] => some .readOne
  | "CALLBACK_DONE", [] => some .callbackDone
  | _, _ => none

/-- A line's tokens, read by the syntax column of R96. -/
def parseTokens : List Token → Option SourceLine
  | .atom m :: ts =>
    let mnemonic := String.ofList m
    if mnemonic = "BUF_WRITE" then
      match ts with
      | .atom offset :: .comma :: samples => do some (.bufWrite (← parseNumber offset) (← parseSamples samples))
      | _ => none
    else if mnemonic = "BUF_APPEND" then do some (.bufAppend (← parseSamples ts))
    else do numericLine mnemonic (← parseNumbers ts)
  | _ => none

/-- The words a line of assembler text encodes (R96); none where the text or a field value is refused. -/
def assembleText (line : String) : Option (List Word) := do
  some (encode (← assemble (← parseTokens (tokens [] line.toList))))

end Sys2Proof.Machine
end

