-- ==== Sys2Proof/Machine/HostProtocol.lean ====
section
/-! DEFINITION. The command sequences of the outside: the pseudo-instructions (R97), the per-tick protocol (R210), the
boot order (R242) and the device's callback (R212), as the source lines they expand to. The block sees only the
expansion, and no rule of the block depends on it. -/

namespace Sys2Proof.Machine

/-- `CH_SILENCE ch` (R97). -/
def chSilence (ch : Nat) : SourceLine := .chWrite ch 0 0 0

/-- `CH_SILENCE_ALL` (R97). -/
def chSilenceAll : List SourceLine := (List.range 8).map chSilence

/-- `MIX_READ 0` to `MIX_READ BLOCK_LEN-1`, the first part of `PUSH_MIX` and `APPEND_MIX` (R97). -/
def mixReads (c : Config) : List SourceLine := (List.range c.blockLen).map .mixRead

/-- The samples the reads of `mixReads` return, cut into runs of at most 65535 (R97), within `fuel` runs. -/
def sampleRuns : Nat → List Int → List (List Int)
  | 0, _ => []
  | fuel + 1, xs => if xs.isEmpty then [] else xs.take 65535 :: sampleRuns fuel (xs.drop 65535)

/-- The writes of `PUSH_MIX offset` for the samples the reads returned: one BUF_WRITE per run, at `offset`,
`offset + 65535`, ... (R97). -/
def pushMixWrites (offset : Nat) (samples : List Int) : List SourceLine :=
  (sampleRuns samples.length samples).mapIdx fun j run => .bufWrite (offset + 65535 * j) run

/-- The writes of `APPEND_MIX` for the samples the reads returned: one BUF_APPEND per run (R97). -/
def appendMixWrites (samples : List Int) : List SourceLine :=
  (sampleRuns samples.length samples).map .bufAppend

/-- `CALLBACK`: `CB_LEN` READ_ONEs, then CALLBACK_DONE (R97, R212). -/
def callback (c : Config) : List SourceLine := List.replicate c.cbLen .readOne ++ [.callbackDone]

/-- The CH_WRITE of one slot in a logic tick. -/
def slotWrite (ch : Voice) (r : ChannelRegister) : SourceLine :=
  .chWrite ch.val r.wave.toNat r.gain.toNat r.freq.toNat

/-- One logic tick up to its push (R210): one CH_WRITE per slot with the registers the sequencer computed (a slot no
voice drives has `ChannelRegister.zero`, which is CH_SILENCE), one GENERATE, then the MIX_READs of the push. -/
def tick (c : Config) (regs : Voice → ChannelRegister) : List SourceLine :=
  (List.finRange 8).map (fun ch => slotWrite ch (regs ch)) ++ [.generate] ++ mixReads c

/-- The producer's part of the boot order (R242): open, optional volume and mute, fill with silence. -/
def boot (cap : Nat) (volume mute : Option Nat) : List SourceLine :=
  [.bufOpen cap] ++ (volume.map SourceLine.bufSetVolume).toList ++ (mute.map SourceLine.bufSetMute).toList ++
    [.bufFillSilent]

end Sys2Proof.Machine
end

