-- ==== Sys2Proof/Safety.lean ====
section
/-! DEFINITION. What counts as a good state and a safe run: the ranges of 10_state.md, the host's pacing duty (R211),
and the words for overrun, underrun and the unread samples (R14, R181, R192). -/

namespace Sys2Proof.Machine

/-- The ranges of R26 for one GeneratorUnit; and a unit with no latched waveform is the idle one (R131, R136). -/
def GeneratorUnit.InRange (c : Config) (g : GeneratorUnit) : Prop :=
  g.phase < c.phaseMod ∧ g.drift < c.sampleRate ∧ g.cur ≤ c.gainFull ∧ (g.lwave = none → g = GeneratorUnit.idle)

/-- A space lists only indices below `n`, in canonical form (R50). -/
def Memory.Below (n : Nat) (m : Memory) : Prop := m.wf = true ∧ ∀ cell ∈ m, cell.1 < n

/-- R30: an open ring has capacity `1 .. CAPACITY_MAX` and samples at `0 .. cap - 1`; a closed one is as at reset
(R36). -/
def Ring.InRange (c : Config) (r : Ring) : Prop :=
  if r.isOpen then r.cap ≠ 0#32 ∧ r.cap.toNat ≤ c.capacityMax.toNat ∧ Memory.Below r.cap.toNat r.data
  else r = Ring.closed

/-- The state ranges that every step keeps: GU (R26), MIX (R31), RING (R30), under a configuration within R7. -/
def State.Inv (s : State) : Prop :=
  s.cfg.wf = true ∧ (∀ v : Voice, (s.gu.get v).InRange s.cfg) ∧ Memory.Below s.cfg.blockLen s.mix ∧
    s.ring.InRange s.cfg

/-- The absolute positions a command writes, as a start and a count; none for a command that writes no position. -/
def writeSpan (s : State) : Instr → Option (Nat × Nat)
  | .bufWrite offset samples _ => some (offset.toNat, samples.length)
  | .bufAppend samples _ => some (s.ring.tail, samples.length)
  | _ => none

/-- The host's pacing duty at a command: every position it writes is below `current + cap` (R211). -/
def PacingDuty (s : State) (i : Instr) : Prop :=
  match writeSpan s i with
  | some (start, n) => ∀ j < n, start + j < s.ring.current.toNat + s.ring.cap.toNat
  | none => True

/-- A write that lands on positions not yet readable: an overrun (R14, R181). -/
def Overruns (s : State) (i : Instr) : Prop := ¬ PacingDuty s i

/-- An underrun: a read with `remain = 0` (R192). -/
def Ring.underruns (r : Ring) : Bool := r.remain == 0#64

/-- The stored sample at an absolute position (R51). -/
def Ring.at (r : Ring) (p : Nat) : Sample := Memory.read r.data (p % r.cap.toNat)

/-- The samples written and not yet read, in the order READ_ONE takes them: positions
`current .. current + remain - 1`. -/
def Ring.unread (r : Ring) : List Sample :=
  (List.range r.remain.toNat).map fun j => r.at (r.current.toNat + j)

/-- `unread` is a queue of its own elements, none named twice: `remain <= cap` (R34). -/
def Ring.paced (r : Ring) : Prop := r.remain.toNat ≤ r.cap.toNat

/-- A GeneratorUnit after `k` samples of one constant snapshot (R130, R143). -/
def voiceAfter (c : Config) (r : ChannelRegister) (m : Bool) : Nat → GeneratorUnit → GeneratorUnit
  | 0, g => g
  | k + 1, g => voiceAfter c r m k (voiceSample c r m g).2

/-- The output of a voice at sample `k` of a block (R130). -/
def voiceOutput (c : Config) (r : ChannelRegister) (m : Bool) (k : Nat) (g : GeneratorUnit) : Int :=
  (voiceSample c r m (voiceAfter c r m k g)).1

/-- A GeneratorUnit after a sequence of samples, each with the snapshot of its own GENERATE. -/
def voiceRun (c : Config) : List (ChannelRegister × Bool) → GeneratorUnit → GeneratorUnit
  | [], g => g
  | rm :: rms, g => voiceRun c rms (voiceSample c rm.1 rm.2 g).2

/-- No sample of the sequence is silent (R131). -/
def SoundsThroughout (c : Config) : List (ChannelRegister × Bool) → GeneratorUnit → Prop
  | [], _ => True
  | rm :: rms, g => isSilent rm.1 g = false ∧ SoundsThroughout c rms (voiceSample c rm.1 rm.2 g).2

/-- A queue operation as a ring command: an append of samples, or a read. -/
def queueCommand : Option (List Sample) → Instr
  | some samples => .bufAppend samples 0#16
  | none => .readOne

/-- What a first-in first-out queue of at most `cap` samples does with a sequence of appends and reads: the samples
read (0 from an empty queue) and the queue left; none where an append does not fit. -/
def queueRun (cap : Nat) : List (Option (List Sample)) → List Sample → Option (List Sample × List Sample)
  | [], q => some ([], q)
  | some samples :: ops, q => if q.length + samples.length ≤ cap then queueRun cap ops (q ++ samples) else none
  | none :: ops, [] => (queueRun cap ops []).map fun r => (0#16 :: r.1, r.2)
  | none :: ops, x :: q => (queueRun cap ops q).map fun r => (x :: r.1, r.2)

/-- Commands taken one after another, each on its own port; none where one stops or raises a fault. -/
def runCommands : List Instr → State → Option State
  | [], s => some s
  | i :: is, s =>
    match exec i { s with port := i.port } with
    | .next t => if t.halted then none else runCommands is t
    | .fault _ => none
    | .refused _ => none

end Sys2Proof.Machine
end

