-- ==== Sys2Proof/Certificates/Slice0/Obligations.lean ====
section
/-! DEFINITION. The statements for the provers. Each docstring names the rule or the section of spec/ it formalises. -/

open Sys2Proof Sys2Proof.Machine

/-! ### Encoding (30_encoding.md) -/

/-- 30_encoding.md sections 1 to 5: the decoder reads back every well-formed command, with every operand at every
value its encoding admits, and leaves the words after it. -/
def Obligations.DecodeReadsBackEncode : Prop :=
  ∀ (i : Instr) (rest : List Word), i.wf = true → decode (encode i ++ rest) = .ok (i, rest)

/-- 30_encoding.md sections 1 to 5: what the decoder accepts is well formed, and no bit of it is dropped: its encoding
is the very words read. -/
def Obligations.EncodeRestoresDecodedWords : Prop :=
  ∀ (ws : List Word) (i : Instr) (rest : List Word), decode ws = .ok (i, rest) →
    i.wf = true ∧ encode i ++ rest = ws

/-- 95_test_vectors.md E1, E4, E8, E17, E24, E27, E28: words written out in the spec decode to the commands it
names. -/
def Obligations.SpecWordsDecode : Prop :=
  decode [0x01020000#32, 0x01F10000#32] = .ok (.chWrite 2 0 1 15 0x10000, []) ∧
  decode [0x01070000#32, 0x02A0C000#32] = .ok (.chWrite 7 0 2 10 0xC000, []) ∧
  decode [0x02070001#32] = .ok (.voiceMute 7 true, []) ∧
  decode [0x0400FFFF#32] = .ok (.mixRead 65535, []) ∧
  decode [0x14000007#32] = .ok (.bufSetVolume 7, []) ∧
  decode [0x20000000#32] = .ok (.readOne, []) ∧
  decode [0x11000003#32, 0x00000002#32, 0x00000001#32, 0x0002FFFF#32, 0x0000FFFD#32] =
    .ok (.bufWrite 0x100000002 [-1, 2, -3] 0, [])

/-- R94: no two rows have headers in common, since their op fields differ, and every header selects exactly one row or
none. -/
def Obligations.HeaderSelectsAtMostOneRow : Prop :=
  (∀ (h : Word), ∀ r ∈ opcodeMap, ∀ q ∈ opcodeMap, r.selects h = true → q.selects h = true → r = q) ∧
  (∀ r ∈ opcodeMap, ∀ q ∈ opcodeMap, r ≠ q → r.matchBits.extractLsb' 24 8 ≠ q.matchBits.extractLsb' 24 8) ∧
  (∀ (h : Word) (r : OpRow), selectRow h = some r ↔ r ∈ opcodeMap ∧ r.selects h = true) ∧
  (∀ h : Word, selectRow h = none ↔ ∀ r ∈ opcodeMap, r.selects h = false)

/-- 30_encoding.md section 4: a reserved opcode selects no row, nor does a defined opcode with a must-be-zero bit
set. -/
def Obligations.ReservedHeadersSelectNoRow : Prop :=
  (∀ h : Word,
    (h.extractLsb' 24 8).toNat ∉
      [0x01, 0x02, 0x03, 0x04, 0x10, 0x11, 0x12, 0x13, 0x14, 0x15, 0x16, 0x17, 0x18, 0x19, 0x1A, 0x20, 0x21] →
    selectRow h = none) ∧
  (∀ (h : Word) (op : Opcode), h.extractLsb' 24 8 = op.row.matchBits.extractLsb' 24 8 →
    (∃ b, b < 24 ∧ op.row.mask.getLsbD b = true ∧ h.getLsbD b = true) → selectRow h = none)

/-- 30_encoding.md section 5: command lengths in words, header included, from the header alone. -/
def Obligations.CommandLengthsAreThoseOfTheMap : Prop :=
  ∀ i : Instr, i.wf = true →
    (encode i).length = commandLength i.header ∧
    (encode i).length =
      match i with
      | .chWrite _ _ _ _ _ => 2
      | .bufOpen _ => 2
      | .bufWrite _ samples _ => 3 + (samples.length + 1) / 2
      | .bufAppend samples _ => 1 + (samples.length + 1) / 2
      | _ => 1

/-- 30_encoding.md section 2: sample `2j` is the low half of payload word `j`, sample `2j + 1` its high half, and an
odd count leaves `pad` in the last high half. -/
def Obligations.PayloadPacksTwoSamplesAWord : Prop :=
  ∀ (samples : List Sample) (pad : BitVec 16),
    (payloadWords samples pad).length = (samples.length + 1) / 2 ∧
    (∀ j, 2 * j < samples.length →
      ∃ w, (payloadWords samples pad)[j]? = some w ∧ samples[2 * j]? = some (w.extractLsb' 0 16) ∧
        (2 * j + 1 < samples.length → samples[2 * j + 1]? = some (w.extractLsb' 16 16)) ∧
        (2 * j + 1 = samples.length → w.extractLsb' 16 16 = pad))

/-- 20_memory.md section 2 (R53, its byte transport): words sent least significant byte first arrive as they were, with
bit `8 * b + k` of a word in bit `k` of its byte `b`. -/
def Obligations.ByteTransportKeepsWords : Prop :=
  (∀ ws : List Word, bytesToWords (ws.flatMap wordBytes) = ws) ∧
  (∀ (w : Word) (b k : Nat), b < 4 → k < 8 →
    ((wordBytes w)[b]?.map fun y => y.getLsbD k) = some (w.getLsbD (8 * b + k)))

/-- 30_encoding.md section 6 (R96, its table and its last sentence): a source line whose field values are in range
assembles to the words of the 'encodes' column, with every field where the column puts it; a line with a value out of
range is refused, never truncated; the nine lines without operands are always accepted. -/
def Obligations.AssemblerRefusesValuesOutOfRange : Prop :=
  (∀ ch wave gain freq : Nat, (assemble (.chWrite ch wave gain freq)).map encode =
    if ch ≤ 7 ∧ wave ≤ 7 ∧ gain ≤ 15 ∧ freq < 2 ^ 20 then
      some [0x01000000#32 ||| BitVec.ofNat 32 ch <<< 16,
        BitVec.ofNat 32 wave <<< 24 ||| BitVec.ofNat 32 gain <<< 20 ||| BitVec.ofNat 32 freq]
    else none) ∧
  (∀ ch m : Nat, (assemble (.voiceMute ch m)).map encode =
    if ch ≤ 7 ∧ m ≤ 1 then some [0x02000000#32 ||| BitVec.ofNat 32 ch <<< 16 ||| BitVec.ofNat 32 m] else none) ∧
  (∀ k : Nat, (assemble (.mixRead k)).map encode =
    if k ≤ 65535 then some [0x04000000#32 ||| BitVec.ofNat 32 k] else none) ∧
  (∀ cap : Nat, (assemble (.bufOpen cap)).map encode =
    if cap < 2 ^ 32 then some [0x10000000#32, BitVec.ofNat 32 cap] else none) ∧
  (∀ (offset : Nat) (samples : List Int), (assemble (.bufWrite offset samples)).map encode =
    if offset < 2 ^ 64 ∧ samples.length ≤ 65535 ∧ ∀ x ∈ samples, -32768 ≤ x ∧ x ≤ 32767 then
      some ((0x11000000#32 ||| BitVec.ofNat 32 samples.length) :: BitVec.ofNat 32 offset ::
        BitVec.ofNat 32 (offset / 2 ^ 32) :: payloadWords (samples.map (BitVec.ofInt 16)) 0)
    else none) ∧
  (∀ samples : List Int, (assemble (.bufAppend samples)).map encode =
    if samples.length ≤ 65535 ∧ ∀ x ∈ samples, -32768 ≤ x ∧ x ≤ 32767 then
      some ((0x12000000#32 ||| BitVec.ofNat 32 samples.length) :: payloadWords (samples.map (BitVec.ofInt 16)) 0)
    else none) ∧
  (∀ v : Nat, (assemble (.bufSetVolume v)).map encode =
    if v ≤ 7 then some [0x14000000#32 ||| BitVec.ofNat 32 v] else none) ∧
  (∀ m : Nat, (assemble (.bufSetMute m)).map encode =
    if m ≤ 1 then some [0x15000000#32 ||| BitVec.ofNat 32 m] else none) ∧
  (assemble .generate).map encode = some [0x03000000#32] ∧
  (assemble .bufFillSilent).map encode = some [0x13000000#32] ∧
  (assemble .bufGetCurrent).map encode = some [0x16000000#32] ∧
  (assemble .bufGetRemain).map encode = some [0x17000000#32] ∧
  (assemble .bufGetCalled).map encode = some [0x18000000#32] ∧
  (assemble .bufGetVolume).map encode = some [0x19000000#32] ∧
  (assemble .bufGetMute).map encode = some [0x1A000000#32] ∧
  (assemble .readOne).map encode = some [0x20000000#32] ∧
  (assemble .callbackDone).map encode = some [0x21000000#32]

/-! ### One step (00_scope.md R13, 20_memory.md, 60_exceptions.md) -/

/-- 20_memory.md section 6 and 30_encoding.md section 1: a step takes the next command of the port whose turn it is and
executes it, on the state in which its words have been taken, its port is the current one, and nothing else has
changed (streams and turns are the model's own fields, log entries 4 to 6). -/
def Obligations.StepRunsTheDecodedCommand : Prop :=
  ∀ (s : State) (p : Port) (turns : List Port) (i : Instr) (rest : List Word),
    s.cfg.wf = true → s.fault = none → s.schedule = p :: turns → decode (s.io p).input = .ok (i, rest) →
    ∃ u : State, step s = exec i u ∧ u.port = p ∧ u.schedule = turns ∧ (u.io p).input = rest ∧
      (u.io p).output = (s.io p).output ∧ (∀ q, q ≠ p → u.io q = s.io q) ∧ u.fault = none ∧ u.cfg = s.cfg ∧
      u.rb = s.rb ∧ u.vmute = s.vmute ∧ u.gu = s.gu ∧ u.mix = s.mix ∧ u.ring = s.ring

/-- 30_encoding.md section 4 and 60_exceptions.md section 1: a header that selects no row raises ILLEGAL_COMMAND on the
port that received it, whatever words follow, and changes no state of the block but FAULT. -/
def Obligations.StepRaisesIllegalCommand : Prop :=
  ∀ (s : State) (p : Port) (turns : List Port) (h : Word) (ws : List Word),
    s.cfg.wf = true → s.fault = none → s.schedule = p :: turns → (s.io p).input = h :: ws → selectRow h = none →
    ∃ t : State, step s = .next t ∧ t.fault = some ⟨.illegalCommand, p, h⟩ ∧
      t.rb = s.rb ∧ t.vmute = s.vmute ∧ t.gu = s.gu ∧ t.mix = s.mix ∧ t.ring = s.ring ∧ t.cfg = s.cfg ∧
      ∀ q, (t.io q).output = (s.io q).output

/-- 30_encoding.md section 5 and 60_exceptions.md section 1: a stream that ends inside a command raises TRUNCATED, or
WRONG_PORT when the command is not that port's, and changes no state of the block but FAULT. -/
def Obligations.StepRaisesTruncatedAfterWrongPort : Prop :=
  ∀ (s : State) (p : Port) (turns : List Port) (i : Instr) (k : Nat),
    s.cfg.wf = true → s.fault = none → s.schedule = p :: turns → i.wf = true →
    0 < k → k < (encode i).length → (s.io p).input = (encode i).take k →
    ∃ t : State, step s = .next t ∧
      t.fault = some ⟨if i.port = p then .truncated else .wrongPort, p, i.header⟩ ∧
      t.rb = s.rb ∧ t.vmute = s.vmute ∧ t.gu = s.gu ∧ t.mix = s.mix ∧ t.ring = s.ring ∧ t.cfg = s.cfg ∧
      ∀ q, (t.io q).output = (s.io q).output

/-- R7: the constraints of a configuration, and the refusal of one that breaks them. Those on DC_CENTER, WAVE_ROM,
PHASE_FRAC and the upper bound of CAPACITY_MAX hold of every configuration by its types. -/
def Obligations.IllFormedConfigurationIsRefused : Prop :=
  (∀ c : Config, c.wf = true ↔
    60 ≤ c.sampleRate ∧ 1 ≤ c.refRate ∧ 0 ≤ c.phaseFrac ∧ 1 ≤ c.gainScale ∧ 1 ≤ c.rampStep ∧
    (-32768 ≤ c.dcCenter.toInt ∧ c.dcCenter.toInt ≤ 32767) ∧
    (∀ (w : Fin 8) (i : Fin 32), -32768 ≤ (c.waveRom[w][i]).toInt ∧ (c.waveRom[w][i]).toInt ≤ 32767) ∧
    (1 ≤ c.capacityMax.toNat ∧ c.capacityMax.toNat ≤ 2 ^ 32 - 1) ∧ 1 ≤ c.cbLen) ∧
  (∀ s : State, s.cfg.wf = false → step s = .refused .illFormedConfig)

/-- The MODEL's choice, log entry 5 (what the block does with nothing to take; 20_memory.md section 6 gives only the
order of the commands there are): with no turn left a step changes nothing, and the turn of a port with no command is
passed over. -/
def Obligations.EmptyTurnsAreIdle : Prop :=
  (∀ s : State, s.cfg.wf = true → s.fault = none → s.schedule = [] → step s = .next s) ∧
  (∀ (s : State) (p : Port) (turns : List Port), s.cfg.wf = true → s.fault = none → s.schedule = p :: turns →
    (s.io p).input = [] → step s = .next { s with schedule := turns })

/-- 20_memory.md section 6 (R64, the case of a complete command; the state in the ranges that every step keeps): a port
with a command can have it taken next, whatever the other port does. -/
def Obligations.AnyPortsCommandCanBeTakenNext : Prop :=
  ∀ (s : State) (p : Port) (turns : List Port) (i : Instr) (rest : List Word),
    s.Inv → s.fault = none → decode (s.io p).input = .ok (i, rest) →
    ∃ t : State, step { s with schedule := p :: turns } = .next t ∧ (t.io p).input = rest ∧ t.schedule = turns

/-- The block never stops without a next state: from every state in the ranges that every step keeps, a step answers a
next state, never a fault or a refusal of the model (60_exceptions.md section 1: every fault of the spec is a record
in a next state). -/
def Obligations.StepNeverStops : Prop :=
  ∀ s : State, s.Inv → ∃ t : State, step s = .next t

/-! ### Faults (60_exceptions.md) -/

/-- R200: a command that raises a fault takes none of its writes into effect, responds nothing, and sets FAULT to
(code, port, header); from then on the block takes no command on either port and its state does not change. -/
def Obligations.FaultHaltsWithNoOtherEffect : Prop :=
  (∀ (i : Instr) (s t : State) (r : FaultRecord), s.fault = none → exec i s = .next t → t.fault = some r →
    t = { s with fault := some r } ∧ r.port = s.port ∧ r.header = i.header) ∧
  (∀ (s t : State) (r : FaultRecord), s.fault = none → step s = .next t → t.fault = some r →
    t.rb = s.rb ∧ t.vmute = s.vmute ∧ t.gu = s.gu ∧ t.mix = s.mix ∧ t.ring = s.ring ∧
    (∀ q, (t.io q).output = (s.io q).output) ∧
    ∃ turns, s.schedule = r.port :: turns ∧ (s.io r.port).input.head? = some r.header) ∧
  (∀ (s : State) (r : FaultRecord), s.cfg.wf = true → s.fault = some r → step s = .next s)

/-- 60_exceptions.md section 4: every command of the map on the port that is not its own raises WRONG_PORT. -/
def Obligations.EveryCommandOnTheOtherPortRaisesWrongPort : Prop :=
  ∀ (i : Instr) (s : State), s.port ≠ i.port →
    exec i s = .next { s with fault := some ⟨.wrongPort, s.port, i.header⟩ }

/-- 60_exceptions.md section 1, code 2: a reserved operand bit raises RESERVED_OPERAND, whether or not the ring is
open. -/
def Obligations.ReservedOperandBitsRaise : Prop :=
  (∀ (s : State) (ch : Voice) (reserved : BitVec 5) (wave : BitVec 3) (gain : BitVec 4) (freq : BitVec 20),
    s.port = .producer → reserved ≠ 0 →
    exec (.chWrite ch reserved wave gain freq) s =
      .next { s with fault := some ⟨.reservedOperand, .producer, (Instr.chWrite ch reserved wave gain freq).header⟩ }) ∧
  (∀ (s : State) (offset : BitVec 64) (samples : List Sample) (pad : BitVec 16),
    s.port = .producer → samples.length % 2 = 1 → pad ≠ 0 →
    exec (.bufWrite offset samples pad) s =
      .next { s with fault := some ⟨.reservedOperand, .producer, (Instr.bufWrite offset samples pad).header⟩ } ∧
    exec (.bufAppend samples pad) s =
      .next { s with fault := some ⟨.reservedOperand, .producer, (Instr.bufAppend samples pad).header⟩ })

/-- 60_exceptions.md section 1, code 5: on a closed ring every ring command but BUF_OPEN raises NOT_OPEN, unless an
earlier fault of the priority order applies. -/
def Obligations.ClosedRingRaisesNotOpen : Prop :=
  ∀ (i : Instr) (s : State), s.port = i.port → s.ring.isOpen = false →
    i.opcode ∈ [Opcode.bufWrite, .bufAppend, .bufFillSilent, .bufSetVolume, .bufSetMute, .bufGetCurrent, .bufGetRemain,
      .bufGetCalled, .bufGetVolume, .bufGetMute, .readOne, .callbackDone] →
    (∀ offset samples pad, i = .bufWrite offset samples pad → samples.length % 2 = 0 ∨ pad = 0) →
    (∀ samples pad, i = .bufAppend samples pad → samples.length % 2 = 0 ∨ pad = 0) →
    exec i s = .next { s with fault := some ⟨.notOpen, s.port, i.header⟩ }

/-- 60_exceptions.md section 1, codes 6 and 7: BUF_OPEN of capacity 0 or above CAPACITY_MAX, and MIX_READ at or past
BLOCK_LEN. -/
def Obligations.CapacityAndIndexFaults : Prop :=
  (∀ (s : State) (cap : BitVec 32), s.port = .producer → cap.toNat = 0 ∨ s.cfg.capacityMax.toNat < cap.toNat →
    exec (.bufOpen cap) s = .next { s with fault := some ⟨.badCapacity, .producer, 0x10000000#32⟩ }) ∧
  (∀ (s : State) (k : BitVec 16), s.port = .producer → s.cfg.sampleRate / 60 ≤ k.toNat →
    exec (.mixRead k) s = .next { s with fault := some ⟨.indexRange, .producer, 0x04000000#32 ||| k.setWidth 32⟩ })

/-- 60_exceptions.md section 1, code 8: a counter that would pass `2^64 - 1` raises COUNTER_OVERFLOW. -/
def Obligations.CountersRaiseInsteadOfWrapping : Prop :=
  (∀ (s : State) (offset : BitVec 64) (samples : List Sample), s.port = .producer → s.ring.isOpen = true →
    2 ^ 64 - 1 < s.ring.remain.toNat + samples.length →
    exec (.bufWrite offset samples 0) s =
      .next { s with fault := some ⟨.counterOverflow, .producer, (Instr.bufWrite offset samples 0).header⟩ } ∧
    exec (.bufAppend samples 0) s =
      .next { s with fault := some ⟨.counterOverflow, .producer, (Instr.bufAppend samples 0).header⟩ }) ∧
  (∀ s : State, s.port = .consumer → s.ring.isOpen = true → s.ring.remain ≠ 0 →
    s.ring.current.toNat = 2 ^ 64 - 1 →
    exec .readOne s = .next { s with fault := some ⟨.counterOverflow, .consumer, 0x20000000#32⟩ }) ∧
  (∀ s : State, s.port = .consumer → s.ring.isOpen = true → s.ring.called.toNat = 2 ^ 64 - 1 →
    exec .callbackDone s = .next { s with fault := some ⟨.counterOverflow, .consumer, 0x21000000#32⟩ })

/-! ### Register commands (40_synth_registers.md) -/

/-- 40_synth_registers.md CH_WRITE: all three fields of one ChannelRegister are replaced, and nothing else changes. -/
def Obligations.ChWriteReplacesOneRegister : Prop :=
  ∀ (s : State) (ch : Voice) (wave : BitVec 3) (gain : BitVec 4) (freq : BitVec 20), s.port = .producer →
    ∃ rb : PerVoice ChannelRegister, exec (.chWrite ch 0 wave gain freq) s = .next { s with rb := rb } ∧
      rb.get ch = ⟨wave, gain, freq⟩ ∧ ∀ v, v ≠ ch → rb.get v = s.rb.get v

/-- 40_synth_registers.md VOICE_MUTE: one voice-mute flag is set to `m`, and nothing else changes. -/
def Obligations.VoiceMuteSetsOneFlag : Prop :=
  ∀ (s : State) (ch : Voice) (m : Bool), s.port = .producer →
    ∃ vm : PerVoice Bool, exec (.voiceMute ch m) s = .next { s with vmute := vm } ∧
      vm.get ch = m ∧ ∀ v, v ≠ ch → vm.get v = s.vmute.get v

/-- 40_synth_registers.md (R122, the CH_WRITE part): a sequence of CH_WRITEs leaves each slot with the last write to
it, or as it was when none names it. -/
def Obligations.LastWriteToEachSlotRemains : Prop :=
  ∀ (writes : List (Voice × ChannelRegister)) (s : State), s.fault = none →
    ∃ t : State,
      runCommands (writes.map fun w => .chWrite w.1 0 w.2.wave w.2.gain w.2.freq) s = some t ∧
      ∀ v, t.rb.get v = (((writes.filter fun w => w.1 == v).getLast?).map (·.2)).getD (s.rb.get v)

/-! ### Synthesis (41_synth_generate.md) -/

/-- 41_synth_generate.md section 1: GENERATE leaves in `MIX[k]`, for each `k < BLOCK_LEN`, the mix of the eight voices'
outputs at sample `k` of their own runs (their sum over 8, truncated, plus DC_CENTER, saturated), and in each
GeneratorUnit its voice's state after BLOCK_LEN samples; nothing else changes. -/
def Obligations.GenerateRunsEveryVoiceThroughTheBlock : Prop :=
  ∀ s : State, s.port = .producer →
    ∃ (gu : PerVoice GeneratorUnit) (mix : Memory), exec .generate s = .next { s with gu := gu, mix := mix } ∧
      (∀ v, gu.get v = voiceAfter s.cfg (s.rb.get v) (s.vmute.get v) (s.cfg.sampleRate / 60) (s.gu.get v)) ∧
      (∀ k, k < s.cfg.sampleRate / 60 →
        let o := fun v => voiceOutput s.cfg (s.rb.get v) (s.vmute.get v) k (s.gu.get v)
        Memory.read mix k = mixOf s.cfg o ∧
        (Memory.read mix k).toInt = max (-32768) (min 32767
          (Int.tdiv (o 0 + o 1 + o 2 + o 3 + o 4 + o 5 + o 6 + o 7) 8 + s.cfg.dcCenter.toInt))) ∧
      (∀ k, s.cfg.sampleRate / 60 ≤ k → Memory.read mix k = 0)

/-- 41_synth_generate.md section 7: VoiceSample written out as the spec's listing of it. -/
def Obligations.VoiceSampleFollowsTheListing : Prop :=
  ∀ (c : Config) (r : ChannelRegister) (m : Bool) (g : GeneratorUnit),
    ((r.gain = 0 ∧ g.cur = 0) → voiceSample c r m g = (0, ⟨0, 0, 0, none, 0⟩)) ∧
    (¬ (r.gain = 0 ∧ g.cur = 0) →
      let spec := if m = true then 0 else r.gain.toNat * c.gainScale
      let cur' := if g.cur < spec then min (g.cur + c.rampStep) spec
        else if g.cur > spec then max (g.cur - c.rampStep) spec else g.cur
      let t := g.drift + r.freq.toNat * c.refRate
      let raw := g.phase + t / c.sampleRate
      let drift' := t % c.sampleRate
      let pm := 32 * 2 ^ c.phaseFrac
      let phase' := raw % pm
      let lwave' := if g.lwave = none ∨ raw ≥ pm then r.wave else g.lwave.getD 0
      let pos := phase' / 2 ^ c.phaseFrac
      let nxt := (pos + 1) % 32
      let fu := (phase' % 2 ^ c.phaseFrac) * c.sampleRate + drift'
      let s : Int := match c.lookup with
        | .floor => romSample c lwave' pos
        | .linear => romSample c lwave' pos +
            Int.tdiv ((romSample c lwave' nxt - romSample c lwave' pos) * fu) (2 ^ c.phaseFrac * c.sampleRate : Nat)
      voiceSample c r m g =
        (Int.tdiv (s * cur') (15 * c.gainScale : Nat), ⟨phase', drift', cur', some lwave', r.freq⟩))

/-- R28: from one sample to the next the current gain changes by at most RAMP_STEP, whatever the registers hold. -/
def Obligations.CurrentGainMovesAtMostOneRampStep : Prop :=
  ∀ (c : Config) (r : ChannelRegister) (m : Bool) (g : GeneratorUnit),
    (voiceSample c r m g).2.cur ≤ g.cur + c.rampStep ∧ g.cur ≤ (voiceSample c r m g).2.cur + c.rampStep

/-- 70_reset_and_hazards.md section 3 (R253, its first sentence): the ramp reaches the specified gain after
`ceil(|spec - cur| / RAMP_STEP)` samples and no sooner. -/
def Obligations.GainReachesItsTargetWhenTheRampSays : Prop :=
  ∀ (c : Config) (cur spec k : Nat), c.rampStep ≠ 0 →
    ((fun g => rampGain c g spec)^[k] cur = spec ↔ (cur - spec) + (spec - cur) ≤ k * c.rampStep)

/-- R143: the phase law, over samples of any number of GENERATEs (each with its own gain, waveform and mute) at one
register frequency. -/
def Obligations.PhaseLawOverAnyBlocks : Prop :=
  ∀ (c : Config) (f : BitVec 20) (snapshots : List (ChannelRegister × Bool)) (g : GeneratorUnit),
    c.wf = true → g.phase < c.phaseMod → g.drift < c.sampleRate →
    (∀ rm ∈ snapshots, rm.1.freq = f) → SoundsThroughout c snapshots g →
    (voiceRun c snapshots g).phase =
      (g.phase + (g.drift + snapshots.length * f.toNat * c.refRate) / c.sampleRate) % c.phaseMod ∧
    (voiceRun c snapshots g).drift = (g.drift + snapshots.length * f.toNat * c.refRate) % c.sampleRate

/-- R251: a voice with latched waveform `w` that is not silent (its register gain is not 0, or it is still fading)
takes the register's waveform at sample number
`ceil((PM * SAMPLE_RATE - p * SAMPLE_RATE - d) / (f * REF_RATE))`, not before, and never later than
`ceil(PM * SAMPLE_RATE / (f * REF_RATE))`; at `f = 0` never while it stays non-silent; and a voice that starts from
silence latches it at its first sample. -/
def Obligations.WaveformSwitchWaitsForTheWrap : Prop :=
  ∀ (c : Config) (r : ChannelRegister) (m : Bool) (g : GeneratorUnit), c.wf = true → g.InRange c →
    (∀ (w : BitVec 3) (j : Nat), g.lwave = some w →
      (∀ k, k < j → ¬ (r.gain = 0 ∧ (voiceAfter c r m k g).cur = 0)) →
      let left := c.phaseMod * c.sampleRate - (g.phase * c.sampleRate + g.drift)
      (j * (r.freq.toNat * c.refRate) < left → (voiceAfter c r m j g).lwave = some w) ∧
      (left ≤ j * (r.freq.toNat * c.refRate) → (voiceAfter c r m j g).lwave = some r.wave) ∧
      (c.phaseMod * c.sampleRate ≤ j * (r.freq.toNat * c.refRate) → (voiceAfter c r m j g).lwave = some r.wave) ∧
      (r.freq = 0 → (voiceAfter c r m j g).lwave = some w)) ∧
    (g.lwave = none → ¬ (r.gain = 0 ∧ g.cur = 0) → (voiceAfter c r m 1 g).lwave = some r.wave)

/-- 41_synth_generate.md section 2 (R138, its range): the interpolated sample lies between the two table samples. -/
def Obligations.LinearLookupStaysBetweenItsSamples : Prop :=
  ∀ (c : Config) (w : BitVec 3) (phase drift : Nat), c.wf = true → phase < c.phaseMod → drift < c.sampleRate →
    let pos := phase / 2 ^ c.phaseFrac
    pos < 32 ∧
    min (romSample c w pos) (romSample c w ((pos + 1) % 32)) ≤ lookupLinear c w phase drift ∧
    lookupLinear c w phase drift ≤ max (romSample c w pos) (romSample c w ((pos + 1) % 32))

/-- R140: the mix is the sum of the eight outputs, divided by 8 truncating toward zero, plus DC_CENTER, saturated to
16 bits; a voice that contributes 0 still counts in the divisor, and eight equal outputs give that output. -/
def Obligations.MixAveragesEightVoicesAndSaturates : Prop :=
  (∀ (c : Config) (o : Voice → Int),
    (mixOf c o).toInt = max (-32768) (min 32767
      (Int.tdiv (o 0 + o 1 + o 2 + o 3 + o 4 + o 5 + o 6 + o 7) 8 + c.dcCenter.toInt))) ∧
  (∀ (c : Config) (o : Voice → Int) (v : Voice), (∀ w, w ≠ v → o w = 0) →
    (mixOf c o).toInt = max (-32768) (min 32767 (Int.tdiv (o v) 8 + c.dcCenter.toInt))) ∧
  (∀ (c : Config) (o : Voice → Int) (x : Int), (∀ v, o v = x) →
    (mixOf c o).toInt = max (-32768) (min 32767 (x + c.dcCenter.toInt)))

/-- R141: every looked-up sample and every voice output is a 16-bit value, so with DC_CENTER = 0 the saturation of the
mix never acts; with DC_CENTER != 0 it can, at either end. -/
def Obligations.SaturationActsOnlyWithADcCentre : Prop :=
  (∀ (c : Config) (r : ChannelRegister) (m : Bool) (g : GeneratorUnit), c.wf = true → g.InRange c →
    (∀ (w : BitVec 3) (phase drift : Nat), phase < c.phaseMod → drift < c.sampleRate →
      -32768 ≤ lookup c w phase drift ∧ lookup c w phase drift ≤ 32767) ∧
    -32768 ≤ (voiceSample c r m g).1 ∧ (voiceSample c r m g).1 ≤ 32767) ∧
  (∀ (c : Config) (o : Voice → Int), c.dcCenter = 0 → (∀ v, -32768 ≤ o v ∧ o v ≤ 32767) →
    let sum := o 0 + o 1 + o 2 + o 3 + o 4 + o 5 + o 6 + o 7
    (-262144 ≤ sum ∧ sum ≤ 262136) ∧ (-32768 ≤ Int.tdiv sum 8 ∧ Int.tdiv sum 8 ≤ 32767) ∧
    (mixOf c o).toInt = Int.tdiv sum 8) ∧
  (∃ (c : Config) (o : Voice → Int), c.dcCenter ≠ 0 ∧ (∀ v, -32768 ≤ o v ∧ o v ≤ 32767) ∧
    32767 < Int.tdiv (o 0 + o 1 + o 2 + o 3 + o 4 + o 5 + o 6 + o 7) 8 + c.dcCenter.toInt ∧
    (mixOf c o).toInt = 32767) ∧
  (∃ (c : Config) (o : Voice → Int), c.dcCenter ≠ 0 ∧ (∀ v, -32768 ≤ o v ∧ o v ≤ 32767) ∧
    Int.tdiv (o 0 + o 1 + o 2 + o 3 + o 4 + o 5 + o 6 + o 7) 8 + c.dcCenter.toInt < -32768 ∧
    (mixOf c o).toInt = -32768)

/-- 41_synth_generate.md section 6 (R148, lanes): lane `v` of a GENERATE depends on nothing but RB[v], VMUTE[v], GU[v]
and the configuration. -/
def Obligations.LanesDoNotInterfere : Prop :=
  ∀ (s s' t t' : State) (v : Voice), s.cfg = s'.cfg → s.port = .producer → s'.port = .producer →
    s.rb.get v = s'.rb.get v → s.vmute.get v = s'.vmute.get v → s.gu.get v = s'.gu.get v →
    exec .generate s = .next t → exec .generate s' = .next t' → t.gu.get v = t'.gu.get v

/-- R244: after reset every register gain and every current gain is 0; a GENERATE in such a state, whatever VOICE_MUTEs
came before it, leaves every voice idle and fills MIX with `sat16(DC_CENTER)`. -/
def Obligations.SilentVoicesMixToTheDcCentre : Prop :=
  (∀ (c : Config) (v : Voice), ((State.resetWith c).rb.get v).gain = 0 ∧
    (State.resetWith c).gu.get v = ⟨0, 0, 0, none, 0⟩) ∧
  (∀ s : State, s.port = .producer → (∀ v, (s.rb.get v).gain = 0 ∧ (s.gu.get v).cur = 0) →
    ∃ t : State, exec .generate s = .next t ∧
      (∀ k, k < s.cfg.sampleRate / 60 → (Memory.read t.mix k).toInt = max (-32768) (min 32767 s.cfg.dcCenter.toInt)) ∧
      (1 ≤ s.cfg.sampleRate / 60 → ∀ v, t.gu.get v = ⟨0, 0, 0, none, 0⟩))

/-- 41_synth_generate.md section 5 (R145, its first sentence): GENERATE neither writes RING nor depends on it. -/
def Obligations.GenerateNeitherReadsNorWritesTheRing : Prop :=
  ∀ (s t : State) (ring : Ring), exec .generate s = .next t →
    t.ring = s.ring ∧ exec .generate { s with ring := ring } = .next { t with ring := ring }

/-- 41_synth_generate.md section 5: MIX_READ below BLOCK_LEN responds with the sign-extended sample and changes nothing
else. -/
def Obligations.MixReadRespondsWithTheSample : Prop :=
  ∀ (s : State) (k : BitVec 16), s.port = .producer → k.toNat < s.cfg.sampleRate / 60 →
    exec (.mixRead k) s =
      .next { s with producer :=
        { s.producer with output := s.producer.output ++ [(Memory.read s.mix k.toNat).signExtend 32] } }

/-! ### Ring control (42_ringbuf_control.md) -/

/-- 42_ringbuf_control.md BUF_OPEN: a capacity in `1 .. CAPACITY_MAX` opens a zero-filled ring with all counters 0,
volume 7, not muted, whatever the ring was before; nothing else changes. -/
def Obligations.BufOpenReplacesTheRing : Prop :=
  ∀ (s : State) (cap : BitVec 32), s.port = .producer → 1 ≤ cap.toNat → cap.toNat ≤ s.cfg.capacityMax.toNat →
    ∃ data : Memory, exec (.bufOpen cap) s = .next { s with ring := ⟨true, cap, data, 0, 0, 0, 7, false⟩ } ∧
      ∀ i, Memory.read data i = 0

/-- 42_ringbuf_control.md BUF_FILL_SILENT: every sample 0, `current` 0, `remain` the capacity; nothing else changes. -/
def Obligations.FillSilentZeroesTheRing : Prop :=
  ∀ s : State, s.port = .producer → s.ring.isOpen = true →
    ∃ (data : Memory) (remain : Counter),
      exec .bufFillSilent s =
        .next { s with ring := { s.ring with data := data, current := 0, remain := remain } } ∧
      remain.toNat = s.ring.cap.toNat ∧ ∀ i, Memory.read data i = 0

/-- 42_ringbuf_control.md BUF_SET_VOLUME and BUF_SET_MUTE: one field of the open ring is set; no stored sample and
nothing else changes. -/
def Obligations.VolumeAndMuteAreSet : Prop :=
  ∀ (s : State) (v : BitVec 3) (m : Bool), s.port = .producer → s.ring.isOpen = true →
    exec (.bufSetVolume v) s = .next { s with ring := { s.ring with volume := v } } ∧
    exec (.bufSetMute m) s = .next { s with ring := { s.ring with mute := m } }

/-- 42_ringbuf_control.md accessors: each responds with its field, a counter as low then high word, and changes nothing
else. -/
def Obligations.AccessorsRespondAndChangeNothing : Prop :=
  ∀ s : State, s.port = .producer → s.ring.isOpen = true →
    let answer := fun ws => { s with producer := { s.producer with output := s.producer.output ++ ws } }
    (∃ lo hi : Word, exec .bufGetCurrent s = .next (answer [lo, hi]) ∧
      s.ring.current.toNat = lo.toNat + hi.toNat * 2 ^ 32) ∧
    (∃ lo hi : Word, exec .bufGetRemain s = .next (answer [lo, hi]) ∧
      s.ring.remain.toNat = lo.toNat + hi.toNat * 2 ^ 32) ∧
    (∃ lo hi : Word, exec .bufGetCalled s = .next (answer [lo, hi]) ∧
      s.ring.called.toNat = lo.toNat + hi.toNat * 2 ^ 32) ∧
    (∃ w : Word, exec .bufGetVolume s = .next (answer [w]) ∧ w.toNat = s.ring.volume.toNat) ∧
    (∃ w : Word, exec .bufGetMute s = .next (answer [w]) ∧ w.toNat = s.ring.mute.toNat)

/-! ### Ring data (43_ringbuf_data.md) -/

/-- 43_ringbuf_data.md BUF_WRITE: sample `j` goes to index `(offset + j) mod cap`, a later sample over an earlier one,
every other index keeps its sample, `remain` grows by the count, and nothing else changes. -/
def Obligations.BufWriteStoresFromTheOffset : Prop :=
  ∀ (s : State) (offset : BitVec 64) (samples : List Sample) (pad : BitVec 16),
    s.port = .producer → s.ring.isOpen = true → s.ring.cap ≠ 0 → s.ring.data.wf = true →
    samples.length % 2 = 0 ∨ pad = 0 → s.ring.remain.toNat + samples.length ≤ 2 ^ 64 - 1 →
    ∃ (data : Memory) (remain : Counter),
      exec (.bufWrite offset samples pad) s =
        .next { s with ring := { s.ring with data := data, remain := remain } } ∧
      remain.toNat = s.ring.remain.toNat + samples.length ∧
      (∀ j, j < samples.length →
        (∀ l, j < l → l < samples.length →
          (offset.toNat + l) % s.ring.cap.toNat ≠ (offset.toNat + j) % s.ring.cap.toNat) →
        samples[j]? = some (Memory.read data ((offset.toNat + j) % s.ring.cap.toNat))) ∧
      (∀ a, (∀ j, j < samples.length → (offset.toNat + j) % s.ring.cap.toNat ≠ a) →
        Memory.read data a = Memory.read s.ring.data a)

/-- 43_ringbuf_data.md BUF_APPEND: the same from the write tail `current + remain`, without a width limit. -/
def Obligations.BufAppendStoresFromTheTail : Prop :=
  ∀ (s : State) (samples : List Sample) (pad : BitVec 16),
    s.port = .producer → s.ring.isOpen = true → s.ring.cap ≠ 0 → s.ring.data.wf = true →
    samples.length % 2 = 0 ∨ pad = 0 → s.ring.remain.toNat + samples.length ≤ 2 ^ 64 - 1 →
    let tail := s.ring.current.toNat + s.ring.remain.toNat
    ∃ (data : Memory) (remain : Counter),
      exec (.bufAppend samples pad) s =
        .next { s with ring := { s.ring with data := data, remain := remain } } ∧
      remain.toNat = s.ring.remain.toNat + samples.length ∧
      (∀ j, j < samples.length →
        (∀ l, j < l → l < samples.length →
          (tail + l) % s.ring.cap.toNat ≠ (tail + j) % s.ring.cap.toNat) →
        samples[j]? = some (Memory.read data ((tail + j) % s.ring.cap.toNat))) ∧
      (∀ a, (∀ j, j < samples.length → (tail + j) % s.ring.cap.toNat ≠ a) →
        Memory.read data a = Memory.read s.ring.data a)

/-- 43_ringbuf_data.md (R181): whatever its length, a BUF_WRITE or BUF_APPEND raises no fault for an overrun: each of
its samples at a position `p` a capacity or more ahead of `current` lands on the index of position `p - cap` and
replaces what was there, unless a later sample of the same command lands on that index too. -/
def Obligations.OverrunReplacesTheSampleACapacityBack : Prop :=
  ∀ (s : State) (samples : List Sample) (pad : BitVec 16),
    s.port = .producer → s.ring.isOpen = true → s.ring.cap ≠ 0 → s.ring.data.wf = true →
    samples.length % 2 = 0 ∨ pad = 0 → s.ring.remain.toNat + samples.length ≤ 2 ^ 64 - 1 →
    let cap := s.ring.cap.toNat
    let lands := fun (start : Nat) (t : State) =>
      t.fault = s.fault ∧ ∀ j, j < samples.length → s.ring.current.toNat + cap ≤ start + j →
        (∀ l, j < l → l < samples.length → (start + l) % cap ≠ (start + j) % cap) →
        samples[j]? = some (t.ring.at (start + j - cap))
    (∀ offset : BitVec 64, ∃ t : State, exec (.bufWrite offset samples pad) s = .next t ∧ lands offset.toNat t) ∧
    (∃ t : State, exec (.bufAppend samples pad) s = .next t ∧
      lands (s.ring.current.toNat + s.ring.remain.toNat) t)

/-- R183: after BUF_FILL_SILENT, a BUF_APPEND of `n <= cap` samples writes indices `0 .. n - 1`, makes
`remain = cap + n`, and the consumer's next `cap + n` reads respond with the appended samples, the remaining silence,
and the appended samples again (attenuated as every read is). -/
def Obligations.AppendAfterFillSilentPlaysTwice : Prop :=
  ∀ (s : State) (samples : List Sample), s.fault = none → s.ring.isOpen = true → s.ring.cap ≠ 0 →
    samples.length ≤ s.ring.cap.toNat →
    ∃ t u : State, runCommands [.bufFillSilent, .bufAppend samples 0] s = some t ∧
      t.ring.current = 0 ∧ t.ring.remain.toNat = s.ring.cap.toNat + samples.length ∧
      (∀ j, j < samples.length → samples[j]? = some (Memory.read t.ring.data j)) ∧
      (∀ j, samples.length ≤ j → Memory.read t.ring.data j = 0) ∧
      runCommands (List.replicate (s.ring.cap.toNat + samples.length) .readOne) t = some u ∧
      u.ring.remain = 0 ∧
      u.consumer.output = s.consumer.output ++
        (samples ++ List.replicate (s.ring.cap.toNat - samples.length) 0 ++ samples).map
          fun x => (s.ring.attenuate x).signExtend 32

/-! ### The consumer port (44_consumer.md) -/

/-- 44_consumer.md READ_ONE: with unread samples it responds with the attenuated sample at `current mod cap`, advances
`current` by 1, takes 1 from `remain`, and changes nothing else; no stored sample changes. -/
def Obligations.ReadOneTakesTheSampleAtCurrent : Prop :=
  ∀ s : State, s.port = .consumer → s.ring.isOpen = true → s.ring.cap ≠ 0 → s.ring.remain ≠ 0 →
    s.ring.current.toNat < 2 ^ 64 - 1 →
    ∃ current remain : Counter,
      exec .readOne s =
        .next { s with
          ring := { s.ring with current := current, remain := remain }
          consumer := { s.consumer with output := s.consumer.output ++
            [(s.ring.attenuate (Memory.read s.ring.data (s.ring.current.toNat % s.ring.cap.toNat))).signExtend 32] } } ∧
      current.toNat = s.ring.current.toNat + 1 ∧ remain.toNat + 1 = s.ring.remain.toNat

/-- R192: an underrun returns 0, leaves every state component unchanged (the response apart) and raises no fault. -/
def Obligations.UnderrunReturnsSilence : Prop :=
  ∀ s : State, s.port = .consumer → s.ring.isOpen = true → s.ring.remain = 0 →
    exec .readOne s = .next { s with consumer := { s.consumer with output := s.consumer.output ++ [0] } }

/-- R191: read-time attenuation as integers, for every sample, volume and mute. -/
def Obligations.AttenuationShiftsTowardMinusInfinity : Prop :=
  ∀ (r : Ring) (x : Sample),
    (r.attenuate x).toInt =
      if r.mute = true then 0
      else if r.volume.toNat = 0 then 0
      else if r.volume.toNat = 7 then x.toInt
      else ⌊(x.toInt : ℚ) / 2 ^ (7 - r.volume.toNat)⌋

/-- 44_consumer.md CALLBACK_DONE: `called` grows by 1 and nothing else changes. -/
def Obligations.CallbackDoneCountsOneCallback : Prop :=
  ∀ s : State, s.port = .consumer → s.ring.isOpen = true → s.ring.called.toNat < 2 ^ 64 - 1 →
    ∃ called : Counter, exec .callbackDone s = .next { s with ring := { s.ring with called := called } } ∧
      called.toNat = s.ring.called.toNat + 1

/-- 42_ringbuf_control.md (R163, for reads): after BUF_FILL_SILENT any number of READ_ONEs returns 0 each, and `remain`
goes from the capacity down to 0 and stays there. -/
def Obligations.FillSilentThenReadsReturnSilence : Prop :=
  ∀ (s : State) (k : Nat), s.fault = none → s.ring.isOpen = true → s.ring.cap ≠ 0 →
    ∃ t : State, runCommands (.bufFillSilent :: List.replicate k .readOne) s = some t ∧
      t.consumer.output = s.consumer.output ++ List.replicate k 0 ∧
      t.ring.remain.toNat = s.ring.cap.toNat - k ∧ t.ring.current.toNat = min k s.ring.cap.toNat

/-- 60_exceptions.md section 5 (R212, the callback): on an open ring a CALLBACK responds with CB_LEN samples and counts
one callback, whatever the ring holds, unless a counter would overflow. -/
def Obligations.CallbackReadsItsBlockAndCountsOnce : Prop :=
  ∀ s : State, s.fault = none → s.ring.isOpen = true → s.ring.cap ≠ 0 →
    s.ring.current.toNat + s.cfg.cbLen ≤ 2 ^ 64 - 1 → s.ring.called.toNat < 2 ^ 64 - 1 →
    ∃ t : State, runCommands ((callback s.cfg).filterMap assemble) s = some t ∧
      t.ring.called.toNat = s.ring.called.toNat + 1 ∧
      t.consumer.output.length = s.consumer.output.length + s.cfg.cbLen ∧
      t.ring.current.toNat - s.ring.current.toNat = min s.cfg.cbLen s.ring.remain.toNat

/-! ### The ring as a queue (43_ringbuf_data.md R184) -/

/-- 43_ringbuf_data.md (R184, for appends): while no append goes past the capacity, the ring is a first-in first-out
queue: over any sequence of appends and reads it responds with what the queue of its unread samples gives, attenuated,
and its unread samples are the queue's. -/
def Obligations.PacedRingIsAQueue : Prop :=
  ∀ (ops : List (Option (List Sample))) (s : State) (out q : List Sample),
    s.fault = none → s.ring.isOpen = true → s.ring.cap ≠ 0 → s.ring.data.wf = true → s.ring.paced →
    s.ring.current.toNat + ops.length ≤ 2 ^ 64 - 1 →
    queueRun s.ring.cap.toNat ops s.ring.unread = some (out, q) →
    ∃ t : State, runCommands (ops.map queueCommand) s = some t ∧
      t.consumer.output = s.consumer.output ++ out.map (fun x => (s.ring.attenuate x).signExtend 32) ∧
      t.ring.unread = q ∧ t.ring.paced

/-! ### Frames (20_memory.md, 41_synth_generate.md R145, 60_exceptions.md R215) -/

/-- 20_memory.md section 6 (R62): the synthesizer's commands leave the ring as it is, and MIX_READ leaves the
synthesizer too. -/
def Obligations.SynthCommandsLeaveTheRing : Prop :=
  ∀ (i : Instr) (s t : State), i.opcode ∈ [Opcode.chWrite, .voiceMute, .generate, .mixRead] → exec i s = .next t →
    t.ring = s.ring ∧ (i.opcode ≠ .generate → t.gu = s.gu ∧ t.mix = s.mix) ∧
    (i.opcode ≠ .chWrite → t.rb = s.rb) ∧ (i.opcode ≠ .voiceMute → t.vmute = s.vmute)

/-- 20_memory.md section 6 (R62): the ring's commands, on either port, leave RB, VMUTE, GU and MIX as they are. -/
def Obligations.RingCommandsLeaveTheSynthesizer : Prop :=
  ∀ (i : Instr) (s t : State), i.opcode ∉ [Opcode.chWrite, .voiceMute, .generate, .mixRead] → exec i s = .next t →
    t.rb = s.rb ∧ t.vmute = s.vmute ∧ t.gu = s.gu ∧ t.mix = s.mix

/-- 30_encoding.md section 1 (R80, R89) and 10_state.md section 11 (R37): a command leaves the configuration, the order
of turns, the current port and both ports' words as they are; it responds on its own port only, after what was sent
before. -/
def Obligations.CommandsRespondOnTheirPortOnly : Prop :=
  ∀ (i : Instr) (s t : State), exec i s = .next t →
    t.cfg = s.cfg ∧ t.schedule = s.schedule ∧ t.port = s.port ∧ (∀ q, (t.io q).input = (s.io q).input) ∧
    (∀ q, q ≠ s.port → t.io q = s.io q) ∧ ∃ ws, (t.io s.port).output = (s.io s.port).output ++ ws ∧ ws.length ≤ 2

/-- 20_memory.md section 6 (R62): a synthesizer command and a consumer command commute: in either order they leave the
same state (but for which port ran last). -/
def Obligations.SynthAndConsumerCommandsCommute : Prop :=
  ∀ (i j : Instr) (s : State), i.opcode ∈ [Opcode.chWrite, .voiceMute, .generate, .mixRead] → j.port = .consumer →
    s.fault = none →
    (runCommands [i, j] s).map (fun t => { t with port := .producer }) =
      (runCommands [j, i] s).map (fun t => { t with port := .producer })

/-! ### Reset and invariants (10_state.md, 70_reset_and_hazards.md) -/

/-- R36: the state after reset, under the default configuration and under any other, and the RING fields BUF_OPEN
re-initialises. -/
def Obligations.ResetLeavesTheTableOfValues : Prop :=
  (∀ s : State, s = State.reset ∨ (∃ c, s = State.resetWith c) →
    (∀ v, s.rb.get v = ⟨0, 0, 0⟩) ∧ (∀ v, s.vmute.get v = false) ∧ (∀ v, s.gu.get v = ⟨0, 0, 0, none, 0⟩) ∧
    (∀ k, Memory.read s.mix k = 0) ∧ s.ring.isOpen = false ∧ s.ring.cap = 0 ∧ s.ring.data = [] ∧
    s.ring.current = 0 ∧ s.ring.remain = 0 ∧ s.ring.called = 0 ∧ s.ring.volume = 7 ∧ s.ring.mute = false ∧
    s.fault = none) ∧
  (∀ (s t : State) (cap : BitVec 32), s.fault = none → exec (.bufOpen cap) s = .next t → t.fault = none →
    ∃ data : Memory,
      t.ring = { (State.resetWith s.cfg).ring with isOpen := true, cap := cap, data := data } ∧
      ∀ i, Memory.read data i = 0)

/-- 10_state.md: the ranges of GU (R26), MIX (R31) and RING (R30) and the canonical form of both sample spaces are kept
by every step, from every state that has them. -/
def Obligations.EveryStepKeepsTheStateRanges : Prop :=
  ∀ s t : State, s.Inv → step s = .next t → t.Inv

/-- 10_state.md: the state after reset, under the configuration of log entry 3, has the ranges that every step keeps. -/
def Obligations.ResetHasTheStateRanges : Prop := State.reset.Inv
end

