-- ==== Sys2Proof/Laws/PerInstr.lean ====
section
/-! SUPPORT. Statements about every command, one lemma per constructor of `Instr`. -/

namespace Sys2Proof.Laws

/-- A 16-bit field beside an opcode's match bits is the concatenation of the two. -/
theorem or_low_half (hi : BitVec 16) (k : BitVec 16) :
    (hi ++ 0#16 : BitVec 32) ||| k.setWidth 32 = (hi ++ k : BitVec 32) := by
  ext i hi'
  simp only [BitVec.getElem_or, BitVec.getElem_append, BitVec.getElem_setWidth]
  by_cases h : i < 16
  · simp [h]
  · simp [h, BitVec.getLsbD_of_ge k i (by omega)]

/-- The upper half of a masked word is its upper half, masked. -/
theorem and_upper_half (hi k : BitVec 16) (mask : Word) :
    ((hi ++ k : BitVec 32) &&& mask).extractLsb' 16 16 = hi &&& mask.extractLsb' 16 16 := by
  ext i hi'
  have h : (hi ++ k).getLsbD (16 + i) = hi[i] := by
    rw [BitVec.getLsbD_append]; simp [hi']
  simp [h]

/-- A format I header passes its mask whatever the low half (R84). -/
theorem and_format_i (hi k : BitVec 16) : (hi ++ k : BitVec 32) &&& 0xFFFF0000#32 = hi ++ 0#16 := by
  have : 0xFFFF0000#32 = (0xFFFF#16 ++ 0#16 : BitVec 32) := by decide
  rw [this, BitVec.and_append, BitVec.and_zero]
  exact congrArg (· ++ 0#16) (BitVec.and_allOnes (x := hi))

/-- A row whose upper half differs is not selected. -/
theorem selects_false_of_upper {r : OpRow} {hi k : BitVec 16}
    (h : hi &&& r.mask.extractLsb' 16 16 ≠ r.matchBits.extractLsb' 16 16) : r.selects (hi ++ k : BitVec 32) = false := by
  unfold OpRow.selects
  rw [beq_eq_false_iff_ne]
  intro he
  exact h (by rw [← he, and_upper_half])

/-- A format I row is selected by its own upper half and any lower half. -/
theorem selects_true_of_format_i {r : OpRow} {hi : BitVec 16} (k : BitVec 16) (hm : r.mask = 0xFFFF0000#32)
    (hb : r.matchBits = hi ++ 0#16) : r.selects (hi ++ k : BitVec 32) = true := by
  unfold OpRow.selects
  rw [hm, hb, and_format_i, beq_self_eq_true]

end Sys2Proof.Laws

namespace Sys2Proof.Laws.HeaderSelectsRow

/-- The header of a command selects the row of its mnemonic, and no other (R90, R94). -/
def Statement (i : Instr) : Prop := selectRow i.header = some i.opcode.row

/-- The row of a format I opcode, found past the rows before it. -/
theorem of_format_i (op : Opcode) (hi k : BitVec 16) (hm : op.row.mask = 0xFFFF0000#32)
    (hb : op.row.matchBits = hi ++ 0#16) (before after : List OpRow) (hmap : opcodeMap = before ++ op.row :: after)
    (hbefore : ∀ r ∈ before, hi &&& r.mask.extractLsb' 16 16 ≠ r.matchBits.extractLsb' 16 16) :
    selectRow (op.row.matchBits ||| k.setWidth 32) = some op.row := by
  rw [hb, or_low_half, selectRow, hmap, List.find?_append, List.find?_eq_none.2, Option.none_or, List.find?_cons_of_pos]
  · exact selects_true_of_format_i k hm hb
  · intro r hr
    rw [selects_false_of_upper (hbefore r hr)]
    decide

theorem chWrite (ch : Voice) (reserved : BitVec 5) (wave : BitVec 3) (gain : BitVec 4) (freq : BitVec 20) :
    Statement (.chWrite ch reserved wave gain freq) := by
  show selectRow (Opcode.chWrite.row.matchBits ||| BitVec.ofNat 32 ch.val <<< 16) = some Opcode.chWrite.row
  revert ch; decide

theorem voiceMute (ch : Voice) (m : Bool) : Statement (.voiceMute ch m) := by
  show selectRow (Opcode.voiceMute.row.matchBits ||| ((BitVec.ofNat 32 ch.val <<< 16) |||
    (BitVec.ofBool m).setWidth 32)) = some Opcode.voiceMute.row
  revert ch m; decide

theorem generate : Statement .generate := by
  show selectRow (Opcode.generate.row.matchBits ||| 0#32) = some Opcode.generate.row
  decide

theorem mixRead (k : BitVec 16) : Statement (.mixRead k) :=
  of_format_i .mixRead 0x0400#16 k rfl (by decide) (opcodeMap.take 3) (opcodeMap.drop 4) rfl (by decide)

theorem bufOpen (cap : BitVec 32) : Statement (.bufOpen cap) := by
  show selectRow (Opcode.bufOpen.row.matchBits ||| 0#32) = some Opcode.bufOpen.row
  decide

theorem bufWrite (offset : BitVec 64) (samples : List Sample) (pad : BitVec 16) :
    Statement (.bufWrite offset samples pad) :=
  of_format_i .bufWrite 0x1100#16 _ rfl (by decide) (opcodeMap.take 5) (opcodeMap.drop 6) rfl (by decide)

theorem bufAppend (samples : List Sample) (pad : BitVec 16) : Statement (.bufAppend samples pad) :=
  of_format_i .bufAppend 0x1200#16 _ rfl (by decide) (opcodeMap.take 6) (opcodeMap.drop 7) rfl (by decide)

theorem bufFillSilent : Statement .bufFillSilent := by
  show selectRow (Opcode.bufFillSilent.row.matchBits ||| 0#32) = some Opcode.bufFillSilent.row
  decide

theorem bufSetVolume (v : BitVec 3) : Statement (.bufSetVolume v) := by
  show selectRow (Opcode.bufSetVolume.row.matchBits ||| v.setWidth 32) = some Opcode.bufSetVolume.row
  revert v; decide

theorem bufSetMute (m : Bool) : Statement (.bufSetMute m) := by
  show selectRow (Opcode.bufSetMute.row.matchBits ||| (BitVec.ofBool m).setWidth 32) = some Opcode.bufSetMute.row
  revert m; decide

theorem bufGetCurrent : Statement .bufGetCurrent := by
  show selectRow (Opcode.bufGetCurrent.row.matchBits ||| 0#32) = some Opcode.bufGetCurrent.row
  decide

theorem bufGetRemain : Statement .bufGetRemain := by
  show selectRow (Opcode.bufGetRemain.row.matchBits ||| 0#32) = some Opcode.bufGetRemain.row
  decide

theorem bufGetCalled : Statement .bufGetCalled := by
  show selectRow (Opcode.bufGetCalled.row.matchBits ||| 0#32) = some Opcode.bufGetCalled.row
  decide

theorem bufGetVolume : Statement .bufGetVolume := by
  show selectRow (Opcode.bufGetVolume.row.matchBits ||| 0#32) = some Opcode.bufGetVolume.row
  decide

theorem bufGetMute : Statement .bufGetMute := by
  show selectRow (Opcode.bufGetMute.row.matchBits ||| 0#32) = some Opcode.bufGetMute.row
  decide

theorem readOne : Statement .readOne := by
  show selectRow (Opcode.readOne.row.matchBits ||| 0#32) = some Opcode.readOne.row
  decide

theorem callbackDone : Statement .callbackDone := by
  show selectRow (Opcode.callbackDone.row.matchBits ||| 0#32) = some Opcode.callbackDone.row
  decide

end Sys2Proof.Laws.HeaderSelectsRow
end

