-- ==== Sys2Proof/Laws/WellFormed.lean ====
section
/-! SUPPORT. The well-formedness checks as propositions. -/

namespace Sys2Proof

theorem samplesFit_iff (samples : List Sample) : samplesFit samples = true ↔ samples.length ≤ 65535 := by
  unfold samplesFit
  rw [decide_eq_true_eq]

theorem padFits_iff (samples : List Sample) (pad : BitVec 16) :
    padFits samples pad = true ↔ (samples.length % 2 = 0 → pad = 0#16) := by
  unfold padFits
  rw [Bool.or_eq_true, beq_iff_eq, beq_iff_eq]
  constructor
  · rintro (h | h) h0
    · omega
    · exact h
  · intro h
    rcases Nat.mod_two_eq_zero_or_one samples.length with h0 | h0
    · exact .inr (h h0)
    · exact .inl h0

theorem bufWrite_wf_iff (offset : BitVec 64) (samples : List Sample) (pad : BitVec 16) :
    (Instr.bufWrite offset samples pad).wf = true ↔
      samples.length ≤ 65535 ∧ (samples.length % 2 = 0 → pad = 0#16) := by
  rw [← samplesFit_iff, ← padFits_iff, ← Bool.and_eq_true]
  rfl

theorem bufAppend_wf_iff (samples : List Sample) (pad : BitVec 16) :
    (Instr.bufAppend samples pad).wf = true ↔
      samples.length ≤ 65535 ∧ (samples.length % 2 = 0 → pad = 0#16) := by
  rw [← samplesFit_iff, ← padFits_iff, ← Bool.and_eq_true]
  rfl

end Sys2Proof
end

