-- ==== Sys2Proof/Laws/Decode.lean ====
section
/-! SUPPORT. The laws of the encoding tables: a header selects the row of its command, the halves of a payload word,
and the words of a payload. -/

namespace Sys2Proof

/-- The header of every command selects the row of its mnemonic (R90). -/
theorem header_selects_row (i : Instr) : selectRow i.header = some i.opcode.row := by
  cases i with
  | chWrite ch reserved wave gain freq => exact Laws.HeaderSelectsRow.chWrite ch reserved wave gain freq
  | voiceMute ch m => exact Laws.HeaderSelectsRow.voiceMute ch m
  | generate => exact Laws.HeaderSelectsRow.generate
  | mixRead k => exact Laws.HeaderSelectsRow.mixRead k
  | bufOpen cap => exact Laws.HeaderSelectsRow.bufOpen cap
  | bufWrite offset samples pad => exact Laws.HeaderSelectsRow.bufWrite offset samples pad
  | bufAppend samples pad => exact Laws.HeaderSelectsRow.bufAppend samples pad
  | bufFillSilent => exact Laws.HeaderSelectsRow.bufFillSilent
  | bufSetVolume v => exact Laws.HeaderSelectsRow.bufSetVolume v
  | bufSetMute m => exact Laws.HeaderSelectsRow.bufSetMute m
  | bufGetCurrent => exact Laws.HeaderSelectsRow.bufGetCurrent
  | bufGetRemain => exact Laws.HeaderSelectsRow.bufGetRemain
  | bufGetCalled => exact Laws.HeaderSelectsRow.bufGetCalled
  | bufGetVolume => exact Laws.HeaderSelectsRow.bufGetVolume
  | bufGetMute => exact Laws.HeaderSelectsRow.bufGetMute
  | readOne => exact Laws.HeaderSelectsRow.readOne
  | callbackDone => exact Laws.HeaderSelectsRow.callbackDone

/-- A row of the map is the row of its own opcode. -/
theorem row_of_mem_opcodeMap : ∀ r ∈ opcodeMap, r = r.opcode.row := by decide

theorem opcode_row_opcode (op : Opcode) : op.row.opcode = op := by cases op <;> rfl

/-- A selected row is in the map and its bits match (R90). -/
theorem selectRow_some {h : Word} {r : OpRow} (hs : selectRow h = some r) :
    r ∈ opcodeMap ∧ h &&& r.mask = r.matchBits := by
  unfold selectRow at hs
  have := List.find?_some hs
  exact ⟨List.mem_of_find?_eq_some hs, by simpa [OpRow.selects] using this⟩

/-- Decoding a stream whose header selects a row reads the operands of that row. -/
theorem decode_of_selectRow {h : Word} {r : OpRow} (hs : selectRow h = some r) (ws : List Word) :
    decode (h :: ws) = decodeOperands r.opcode h ws := by
  simp [decode, hs]

theorem lowHalf_append (y x : BitVec 16) : lowHalf (y ++ x : BitVec 32) = x := by
  unfold lowHalf
  ext i hi
  simp only [BitVec.getElem_extractLsb', BitVec.getLsbD_append]
  simp [hi]

theorem highHalf_append (y x : BitVec 16) : highHalf (y ++ x : BitVec 32) = y := by
  unfold highHalf
  ext i hi
  simp only [BitVec.getElem_extractLsb', BitVec.getLsbD_append]
  simp [hi]

theorem highHalf_append_lowHalf (w : Word) : (highHalf w ++ lowHalf w : BitVec 32) = w := by
  unfold highHalf lowHalf
  ext i hi
  simp only [BitVec.getElem_append, BitVec.getElem_extractLsb']
  split <;> (rw [← BitVec.getLsbD_eq_getElem]; congr 1; omega)

/-- The count field of a format I header is its low half (R84). -/
theorem immField_of_or {op : Opcode} {hi : BitVec 16} (h : op.row.matchBits = hi ++ 0#16) (k : BitVec 16) :
    immField (op.row.matchBits ||| k.setWidth 32) = k := by
  rw [h, Laws.or_low_half]
  exact lowHalf_append hi k

end Sys2Proof
end

