-- ==== Sys2Proof/Laws/Memory.lean ====
section
/-! SUPPORT. The laws of a sample space: read after write, the canonical form kept by every operation, and equal reads
mean equal spaces. -/

namespace Sys2Proof.Machine

theorem Memory.wf_iff (m : Memory) :
    m.wf = true ↔ m.Pairwise (fun a b => a.1 < b.1) ∧ ∀ cell ∈ m, cell.2 ≠ 0#16 := by
  simp [Memory.wf]

theorem Memory.wf_nil : Memory.wf [] = true := rfl

theorem Memory.wf_cons_iff (c : Nat × Sample) (m : Memory) :
    Memory.wf (c :: m) = true ↔ (∀ d ∈ m, c.1 < d.1) ∧ c.2 ≠ 0#16 ∧ m.wf = true := by
  simp only [Memory.wf_iff, List.pairwise_cons, List.mem_cons, forall_eq_or_imp]
  tauto

/-- An index below every listed one reads 0. -/
theorem Memory.read_of_lt (m : Memory) (i : Nat) (h : ∀ d ∈ m, i < d.1) : Memory.read m i = 0#16 := by
  induction m with
  | nil => rfl
  | cons c m ih =>
    have hc := h c (by simp)
    have : c.1 ≠ i := by omega
    simp only [Memory.read, this, if_false]
    exact ih fun d hd => h d (by simp [hd])

theorem Memory.read_cons_at (i j : Nat) (x : Sample) (m : Memory) (h : ∀ d ∈ m, i < d.1) :
    Memory.read (Memory.cons i x m) j = if j = i then x else Memory.read m j := by
  unfold Memory.cons
  by_cases hx : x = 0#16
  · by_cases hj : j = i
    · subst hj
      simp [hx, Memory.read_of_lt m j h]
    · simp [hx, hj]
  · by_cases hj : j = i
    · subst hj; simp [hx, Memory.read]
    · have : ¬ i = j := fun e => hj e.symm
      simp [hx, hj, this, Memory.read]

theorem Memory.cons_wf (i : Nat) (x : Sample) (m : Memory) (h : ∀ d ∈ m, i < d.1) (hm : m.wf = true) :
    (Memory.cons i x m).wf = true := by
  unfold Memory.cons
  by_cases hx : x = 0#16
  · simpa [hx] using hm
  · simpa [hx] using (Memory.wf_cons_iff (i, x) m).2 ⟨h, hx, hm⟩

theorem Memory.mem_cons_fst (i : Nat) (x : Sample) (m : Memory) (d : Nat × Sample) (h : d ∈ Memory.cons i x m) :
    d.1 = i ∨ d ∈ m := by
  unfold Memory.cons at h
  by_cases hx : x = 0#16
  · simp only [hx, if_true] at h; exact .inr h
  · simp only [hx, if_false, List.mem_cons] at h
    rcases h with rfl | h
    · exact .inl rfl
    · exact .inr h

/-- A write lists no index but the one written and those listed before. -/
theorem Memory.mem_write_fst (m : Memory) (i : Nat) (x : Sample) (d : Nat × Sample) (h : d ∈ m.write i x) :
    d.1 = i ∨ d ∈ m := by
  induction m with
  | nil => simpa using Memory.mem_cons_fst i x [] d h
  | cons c m ih =>
    obtain ⟨j, y⟩ := c
    simp only [Memory.write] at h
    split at h
    · exact Memory.mem_cons_fst i x _ d h
    · split at h
      · rcases Memory.mem_cons_fst i x m d h with h | h
        · exact .inl h
        · exact .inr (by simp [h])
      · simp only [List.mem_cons] at h ⊢
        rcases h with h | h
        · exact .inr (.inl h)
        · rcases ih h with h | h
          · exact .inl h
          · exact .inr (.inr h)

/-- Every write keeps the canonical form. -/
theorem Memory.write_wf (m : Memory) (i : Nat) (x : Sample) (hm : m.wf = true) : (m.write i x).wf = true := by
  induction m with
  | nil => exact Memory.cons_wf i x [] (by simp) Memory.wf_nil
  | cons c m ih =>
    obtain ⟨j, y⟩ := c
    obtain ⟨h1, h2, h3⟩ := (Memory.wf_cons_iff _ _).1 hm
    simp only at h1 h2
    simp only [Memory.write]
    split
    · rename_i hij
      refine Memory.cons_wf i x _ ?_ hm
      intro d hd
      rcases List.mem_cons.1 hd with rfl | hd
      · exact hij
      · have := h1 d hd; omega
    · split
      · rename_i hij; subst hij
        exact Memory.cons_wf i x m h1 h3
      · refine (Memory.wf_cons_iff _ _).2 ⟨?_, h2, ih h3⟩
        intro d hd
        rcases Memory.mem_write_fst m i x d hd with h | h
        · simp only; omega
        · exact h1 d h

/-- Read after write: the written index holds the sample, every other index what it held. -/
theorem Memory.read_write (m : Memory) (i j : Nat) (x : Sample) (hm : m.wf = true) :
    Memory.read (m.write i x) j = if j = i then x else Memory.read m j := by
  induction m with
  | nil => exact Memory.read_cons_at i j x [] (by simp)
  | cons c m ih =>
    obtain ⟨k, y⟩ := c
    obtain ⟨h1, h2, h3⟩ := (Memory.wf_cons_iff _ _).1 hm
    simp only at h1 h2
    simp only [Memory.write]
    split
    · rename_i hik
      refine Memory.read_cons_at i j x _ ?_
      intro d hd
      rcases List.mem_cons.1 hd with rfl | hd
      · exact hik
      · have := h1 d hd; omega
    · split
      · rename_i hik; subst hik
        rw [Memory.read_cons_at i j x m h1]
        by_cases hj : j = i
        · simp [hj]
        · simp [hj, Memory.read, Ne.symm hj]
      · rename_i hlt hne
        simp only [Memory.read, ih h3]
        by_cases hk : k = j
        · subst hk
          have : ¬ k = i := fun e => hne e.symm
          simp [this]
        · simp [hk]

/-- Two canonical spaces that read alike are equal. -/
theorem Memory.ext_read {m n : Memory} (hm : m.wf = true) (hn : n.wf = true)
    (h : ∀ i, Memory.read m i = Memory.read n i) : m = n := by
  induction m generalizing n with
  | nil =>
    cases n with
    | nil => rfl
    | cons c n =>
      obtain ⟨_, h2, _⟩ := (Memory.wf_cons_iff _ _).1 hn
      have := h c.1
      simp only [Memory.read, if_true] at this
      exact absurd this.symm h2
  | cons c m ih =>
    obtain ⟨hm1, hm2, hm3⟩ := (Memory.wf_cons_iff _ _).1 hm
    cases n with
    | nil =>
      have := h c.1
      simp only [Memory.read, if_true] at this
      exact absurd this hm2
    | cons d n =>
      obtain ⟨hn1, hn2, hn3⟩ := (Memory.wf_cons_iff _ _).1 hn
      have hc : c.1 = d.1 := by
        by_contra hne
        rcases Nat.lt_or_gt_of_ne hne with hlt | hlt
        · have := h c.1
          rw [Memory.read_of_lt (d :: n) c.1 (by
            intro e he
            rcases List.mem_cons.1 he with rfl | he
            · exact hlt
            · have := hn1 e he; omega)] at this
          simp only [Memory.read, if_true] at this
          exact hm2 this
        · have := h d.1
          rw [Memory.read_of_lt (c :: m) d.1 (by
            intro e he
            rcases List.mem_cons.1 he with rfl | he
            · exact hlt
            · have := hm1 e he; omega)] at this
          simp only [Memory.read, if_true] at this
          exact hn2 this.symm
      obtain ⟨i, x⟩ := c
      obtain ⟨j, y⟩ := d
      simp only at hc hm1 hn1
      subst hc
      have hx : x = y := by
        have := h i
        simpa [Memory.read] using this
      subst hx
      congr 1
      refine ih hm3 hn3 fun k => ?_
      by_cases hk : i = k
      · subst hk
        rw [Memory.read_of_lt m i hm1, Memory.read_of_lt n i hn1]
      · have := h k
        simpa [Memory.read, hk] using this

theorem Memory.ofSamplesFrom_bounds (k : Nat) (xs : List Sample) :
    ∀ d ∈ Memory.ofSamplesFrom k xs, k ≤ d.1 ∧ d.1 < k + xs.length := by
  induction xs generalizing k with
  | nil => simp [Memory.ofSamplesFrom]
  | cons x xs ih =>
    intro d hd
    rcases Memory.mem_cons_fst k x _ d hd with h | h
    · simp [h]
    · have := ih (k + 1) d h
      simp only [List.length_cons]; omega

theorem Memory.ofSamplesFrom_wf (k : Nat) (xs : List Sample) : (Memory.ofSamplesFrom k xs).wf = true := by
  induction xs generalizing k with
  | nil => rfl
  | cons x xs ih =>
    exact Memory.cons_wf k x _ (fun d hd => (Memory.ofSamplesFrom_bounds (k + 1) xs d hd).1) (ih (k + 1))

theorem Memory.read_ofSamplesFrom (k : Nat) (xs : List Sample) (i : Nat) :
    Memory.read (Memory.ofSamplesFrom k xs) (k + i) = xs[i]?.getD 0#16 := by
  induction xs generalizing k i with
  | nil => rfl
  | cons x xs ih =>
    have hb : ∀ d ∈ Memory.ofSamplesFrom (k + 1) xs, k < d.1 := fun d hd =>
      (Memory.ofSamplesFrom_bounds (k + 1) xs d hd).1
    rw [Memory.ofSamplesFrom, Memory.read_cons_at k (k + i) x _ hb]
    cases i with
    | zero => simp
    | succ i =>
      have h1 : k + (i + 1) = k + 1 + i := by omega
      have h2 : ¬ k + 1 + i = k := by omega
      simp [h1, h2, ih (k + 1) i]

/-- The space of a sample list is canonical. -/
theorem Memory.ofSamples_wf (xs : List Sample) : (Memory.ofSamples xs).wf = true := Memory.ofSamplesFrom_wf 0 xs

/-- Element `i` of the space of a sample list is its sample `i`. -/
theorem Memory.read_ofSamples (xs : List Sample) (i : Nat) : Memory.read (Memory.ofSamples xs) i = xs[i]?.getD 0#16 := by
  simpa [Memory.ofSamples] using Memory.read_ofSamplesFrom 0 xs i

/-- The writes of a block keep the canonical form. -/
theorem Memory.storeWrapped_wf (cap b j : Nat) (xs : List Sample) (m : Memory) (hm : m.wf = true) :
    (Memory.storeWrapped cap b j xs m).wf = true := by
  induction xs generalizing j m with
  | nil => exact hm
  | cons x xs ih => exact ih (j + 1) _ (Memory.write_wf m _ x hm)

/-- The writes of a block reach only indices below the capacity. -/
theorem Memory.storeWrapped_below (cap b j : Nat) (hcap : 0 < cap) (xs : List Sample) (m : Memory)
    (hb : ∀ d ∈ m, d.1 < cap) : ∀ d ∈ Memory.storeWrapped cap b j xs m, d.1 < cap := by
  induction xs generalizing j m with
  | nil => exact hb
  | cons x xs ih =>
    refine ih (j + 1) _ fun d hd => ?_
    rcases Memory.mem_write_fst m _ x d hd with h | h
    · rw [h]; exact Nat.mod_lt _ hcap
    · exact hb d h

/-- An index no sample of the block lands on keeps its sample. -/
theorem Memory.read_storeWrapped_other (cap b j i : Nat) (xs : List Sample) (m : Memory) (hm : m.wf = true)
    (h : ∀ k < xs.length, (b + (j + k)) % cap ≠ i) :
    Memory.read (Memory.storeWrapped cap b j xs m) i = Memory.read m i := by
  induction xs generalizing j m with
  | nil => rfl
  | cons x xs ih =>
    rw [Memory.storeWrapped, ih (j + 1) _ (Memory.write_wf m _ x hm) (by
      intro k hk
      have := h (k + 1) (by simp; omega)
      rwa [show j + (k + 1) = j + 1 + k by omega] at this)]
    rw [Memory.read_write m _ i x hm]
    have := h 0 (by simp)
    simp only [Nat.add_zero] at this
    simp [Ne.symm this]

/-- An index holds the last sample of the block that lands on it (R180). -/
theorem Memory.read_storeWrapped_last (cap b j k : Nat) (xs : List Sample) (m : Memory) (hm : m.wf = true)
    (hk : k < xs.length) (hlast : ∀ l < xs.length, k < l → (b + (j + l)) % cap ≠ (b + (j + k)) % cap) :
    Memory.read (Memory.storeWrapped cap b j xs m) ((b + (j + k)) % cap) = xs[k] := by
  induction xs generalizing j k m with
  | nil => simp at hk
  | cons x xs ih =>
    rw [Memory.storeWrapped]
    cases k with
    | zero =>
      rw [Memory.read_storeWrapped_other _ _ _ _ _ _ (Memory.write_wf m _ x hm) (by
        intro l hl
        have := hlast (l + 1) (by simp; omega) (by omega)
        rwa [show j + (l + 1) = j + 1 + l by omega] at this)]
      simp [Memory.read_write m _ _ x hm]
    | succ k =>
      have := ih (j + 1) k (m.write ((b + j) % cap) x) (Memory.write_wf m _ x hm) (by simpa using hk) (by
        intro l hl hkl
        have := hlast (l + 1) (by simp; omega) (by omega)
        rwa [show j + (l + 1) = j + 1 + l by omega, show j + (k + 1) = j + 1 + k by omega] at this)
      rw [show j + (k + 1) = j + 1 + k by omega]
      simpa using this

end Sys2Proof.Machine
end

