-- ==== Sys2Proof/Laws/State.lean ====
section
/-! SUPPORT. One lemma per field per update of State, and the laws of the register files and of a port's streams. -/

namespace Sys2Proof.Machine

/-! ### Register files -/

@[simp] theorem PerVoice.get_of {α : Type} (f : Voice → α) (v : Voice) : (PerVoice.of f).get v = f v := by
  fin_cases v <;> rfl

@[simp] theorem PerVoice.get_fill {α : Type} (x : α) (v : Voice) : (PerVoice.fill x).get v = x := by
  fin_cases v <;> rfl

theorem PerVoice.get_set {α : Type} (x : PerVoice α) (v w : Voice) (a : α) :
    (x.set v a).get w = if w = v then a else x.get w := by
  fin_cases v <;> fin_cases w <;> rfl

@[simp] theorem PerVoice.get_set_same {α : Type} (x : PerVoice α) (v : Voice) (a : α) : (x.set v a).get v = a := by
  simp [PerVoice.get_set]

theorem PerVoice.get_set_other {α : Type} (x : PerVoice α) {v w : Voice} (h : w ≠ v) (a : α) :
    (x.set v a).get w = x.get w := by
  simp [PerVoice.get_set, h]

@[ext] theorem PerVoice.ext_get {α : Type} {x y : PerVoice α} (h : ∀ v, x.get v = y.get v) : x = y := by
  have h0 := h 0; have h1 := h 1; have h2 := h 2; have h3 := h 3
  have h4 := h 4; have h5 := h 5; have h6 := h 6; have h7 := h 7
  cases x; cases y
  simp_all [PerVoice.get]

/-! ### setRegister -/

@[simp] theorem State.setRegister_rb (s : State) (ch : Voice) (r : ChannelRegister) : (s.setRegister ch r).rb = s.rb.set ch r := rfl
@[simp] theorem State.setRegister_vmute (s : State) (ch : Voice) (r : ChannelRegister) : (s.setRegister ch r).vmute = s.vmute := rfl
@[simp] theorem State.setRegister_gu (s : State) (ch : Voice) (r : ChannelRegister) : (s.setRegister ch r).gu = s.gu := rfl
@[simp] theorem State.setRegister_mix (s : State) (ch : Voice) (r : ChannelRegister) : (s.setRegister ch r).mix = s.mix := rfl
@[simp] theorem State.setRegister_ring (s : State) (ch : Voice) (r : ChannelRegister) : (s.setRegister ch r).ring = s.ring := rfl
@[simp] theorem State.setRegister_fault (s : State) (ch : Voice) (r : ChannelRegister) : (s.setRegister ch r).fault = s.fault := rfl
@[simp] theorem State.setRegister_cfg (s : State) (ch : Voice) (r : ChannelRegister) : (s.setRegister ch r).cfg = s.cfg := rfl
@[simp] theorem State.setRegister_producer (s : State) (ch : Voice) (r : ChannelRegister) : (s.setRegister ch r).producer = s.producer := rfl
@[simp] theorem State.setRegister_consumer (s : State) (ch : Voice) (r : ChannelRegister) : (s.setRegister ch r).consumer = s.consumer := rfl
@[simp] theorem State.setRegister_schedule (s : State) (ch : Voice) (r : ChannelRegister) : (s.setRegister ch r).schedule = s.schedule := rfl
@[simp] theorem State.setRegister_port (s : State) (ch : Voice) (r : ChannelRegister) : (s.setRegister ch r).port = s.port := rfl
@[simp] theorem State.setRegister_io (s : State) (ch : Voice) (r : ChannelRegister) (q : Port) : (s.setRegister ch r).io q = s.io q := by
  cases q <;> rfl

/-! ### setVoiceMute -/

@[simp] theorem State.setVoiceMute_rb (s : State) (ch : Voice) (m : Bool) : (s.setVoiceMute ch m).rb = s.rb := rfl
@[simp] theorem State.setVoiceMute_vmute (s : State) (ch : Voice) (m : Bool) : (s.setVoiceMute ch m).vmute = s.vmute.set ch m := rfl
@[simp] theorem State.setVoiceMute_gu (s : State) (ch : Voice) (m : Bool) : (s.setVoiceMute ch m).gu = s.gu := rfl
@[simp] theorem State.setVoiceMute_mix (s : State) (ch : Voice) (m : Bool) : (s.setVoiceMute ch m).mix = s.mix := rfl
@[simp] theorem State.setVoiceMute_ring (s : State) (ch : Voice) (m : Bool) : (s.setVoiceMute ch m).ring = s.ring := rfl
@[simp] theorem State.setVoiceMute_fault (s : State) (ch : Voice) (m : Bool) : (s.setVoiceMute ch m).fault = s.fault := rfl
@[simp] theorem State.setVoiceMute_cfg (s : State) (ch : Voice) (m : Bool) : (s.setVoiceMute ch m).cfg = s.cfg := rfl
@[simp] theorem State.setVoiceMute_producer (s : State) (ch : Voice) (m : Bool) : (s.setVoiceMute ch m).producer = s.producer := rfl
@[simp] theorem State.setVoiceMute_consumer (s : State) (ch : Voice) (m : Bool) : (s.setVoiceMute ch m).consumer = s.consumer := rfl
@[simp] theorem State.setVoiceMute_schedule (s : State) (ch : Voice) (m : Bool) : (s.setVoiceMute ch m).schedule = s.schedule := rfl
@[simp] theorem State.setVoiceMute_port (s : State) (ch : Voice) (m : Bool) : (s.setVoiceMute ch m).port = s.port := rfl
@[simp] theorem State.setVoiceMute_io (s : State) (ch : Voice) (m : Bool) (q : Port) : (s.setVoiceMute ch m).io q = s.io q := by
  cases q <;> rfl

/-! ### setBlock -/

@[simp] theorem State.setBlock_rb (s : State) (gu : PerVoice GeneratorUnit) (mix : Memory) : (s.setBlock gu mix).rb = s.rb := rfl
@[simp] theorem State.setBlock_vmute (s : State) (gu : PerVoice GeneratorUnit) (mix : Memory) : (s.setBlock gu mix).vmute = s.vmute := rfl
@[simp] theorem State.setBlock_gu (s : State) (gu : PerVoice GeneratorUnit) (mix : Memory) : (s.setBlock gu mix).gu = gu := rfl
@[simp] theorem State.setBlock_mix (s : State) (gu : PerVoice GeneratorUnit) (mix : Memory) : (s.setBlock gu mix).mix = mix := rfl
@[simp] theorem State.setBlock_ring (s : State) (gu : PerVoice GeneratorUnit) (mix : Memory) : (s.setBlock gu mix).ring = s.ring := rfl
@[simp] theorem State.setBlock_fault (s : State) (gu : PerVoice GeneratorUnit) (mix : Memory) : (s.setBlock gu mix).fault = s.fault := rfl
@[simp] theorem State.setBlock_cfg (s : State) (gu : PerVoice GeneratorUnit) (mix : Memory) : (s.setBlock gu mix).cfg = s.cfg := rfl
@[simp] theorem State.setBlock_producer (s : State) (gu : PerVoice GeneratorUnit) (mix : Memory) : (s.setBlock gu mix).producer = s.producer := rfl
@[simp] theorem State.setBlock_consumer (s : State) (gu : PerVoice GeneratorUnit) (mix : Memory) : (s.setBlock gu mix).consumer = s.consumer := rfl
@[simp] theorem State.setBlock_schedule (s : State) (gu : PerVoice GeneratorUnit) (mix : Memory) : (s.setBlock gu mix).schedule = s.schedule := rfl
@[simp] theorem State.setBlock_port (s : State) (gu : PerVoice GeneratorUnit) (mix : Memory) : (s.setBlock gu mix).port = s.port := rfl
@[simp] theorem State.setBlock_io (s : State) (gu : PerVoice GeneratorUnit) (mix : Memory) (q : Port) : (s.setBlock gu mix).io q = s.io q := by
  cases q <;> rfl

/-! ### setRing -/

@[simp] theorem State.setRing_rb (s : State) (r : Ring) : (s.setRing r).rb = s.rb := rfl
@[simp] theorem State.setRing_vmute (s : State) (r : Ring) : (s.setRing r).vmute = s.vmute := rfl
@[simp] theorem State.setRing_gu (s : State) (r : Ring) : (s.setRing r).gu = s.gu := rfl
@[simp] theorem State.setRing_mix (s : State) (r : Ring) : (s.setRing r).mix = s.mix := rfl
@[simp] theorem State.setRing_ring (s : State) (r : Ring) : (s.setRing r).ring = r := rfl
@[simp] theorem State.setRing_fault (s : State) (r : Ring) : (s.setRing r).fault = s.fault := rfl
@[simp] theorem State.setRing_cfg (s : State) (r : Ring) : (s.setRing r).cfg = s.cfg := rfl
@[simp] theorem State.setRing_producer (s : State) (r : Ring) : (s.setRing r).producer = s.producer := rfl
@[simp] theorem State.setRing_consumer (s : State) (r : Ring) : (s.setRing r).consumer = s.consumer := rfl
@[simp] theorem State.setRing_schedule (s : State) (r : Ring) : (s.setRing r).schedule = s.schedule := rfl
@[simp] theorem State.setRing_port (s : State) (r : Ring) : (s.setRing r).port = s.port := rfl
@[simp] theorem State.setRing_io (s : State) (r : Ring) (q : Port) : (s.setRing r).io q = s.io q := by
  cases q <;> rfl

/-! ### takeFault -/

@[simp] theorem State.takeFault_rb (s : State) (code : FaultCode) (header : Word) : (s.takeFault code header).rb = s.rb := rfl
@[simp] theorem State.takeFault_vmute (s : State) (code : FaultCode) (header : Word) : (s.takeFault code header).vmute = s.vmute := rfl
@[simp] theorem State.takeFault_gu (s : State) (code : FaultCode) (header : Word) : (s.takeFault code header).gu = s.gu := rfl
@[simp] theorem State.takeFault_mix (s : State) (code : FaultCode) (header : Word) : (s.takeFault code header).mix = s.mix := rfl
@[simp] theorem State.takeFault_ring (s : State) (code : FaultCode) (header : Word) : (s.takeFault code header).ring = s.ring := rfl
@[simp] theorem State.takeFault_fault (s : State) (code : FaultCode) (header : Word) : (s.takeFault code header).fault = some ⟨code, s.port, header⟩ := rfl
@[simp] theorem State.takeFault_cfg (s : State) (code : FaultCode) (header : Word) : (s.takeFault code header).cfg = s.cfg := rfl
@[simp] theorem State.takeFault_producer (s : State) (code : FaultCode) (header : Word) : (s.takeFault code header).producer = s.producer := rfl
@[simp] theorem State.takeFault_consumer (s : State) (code : FaultCode) (header : Word) : (s.takeFault code header).consumer = s.consumer := rfl
@[simp] theorem State.takeFault_schedule (s : State) (code : FaultCode) (header : Word) : (s.takeFault code header).schedule = s.schedule := rfl
@[simp] theorem State.takeFault_port (s : State) (code : FaultCode) (header : Word) : (s.takeFault code header).port = s.port := rfl
@[simp] theorem State.takeFault_io (s : State) (code : FaultCode) (header : Word) (q : Port) : (s.takeFault code header).io q = s.io q := by
  cases q <;> rfl

/-! ### turnOf -/

@[simp] theorem State.turnOf_rb (s : State) (p : Port) (turns : List Port) : (s.turnOf p turns).rb = s.rb := rfl
@[simp] theorem State.turnOf_vmute (s : State) (p : Port) (turns : List Port) : (s.turnOf p turns).vmute = s.vmute := rfl
@[simp] theorem State.turnOf_gu (s : State) (p : Port) (turns : List Port) : (s.turnOf p turns).gu = s.gu := rfl
@[simp] theorem State.turnOf_mix (s : State) (p : Port) (turns : List Port) : (s.turnOf p turns).mix = s.mix := rfl
@[simp] theorem State.turnOf_ring (s : State) (p : Port) (turns : List Port) : (s.turnOf p turns).ring = s.ring := rfl
@[simp] theorem State.turnOf_fault (s : State) (p : Port) (turns : List Port) : (s.turnOf p turns).fault = s.fault := rfl
@[simp] theorem State.turnOf_cfg (s : State) (p : Port) (turns : List Port) : (s.turnOf p turns).cfg = s.cfg := rfl
@[simp] theorem State.turnOf_producer (s : State) (p : Port) (turns : List Port) : (s.turnOf p turns).producer = s.producer := rfl
@[simp] theorem State.turnOf_consumer (s : State) (p : Port) (turns : List Port) : (s.turnOf p turns).consumer = s.consumer := rfl
@[simp] theorem State.turnOf_schedule (s : State) (p : Port) (turns : List Port) : (s.turnOf p turns).schedule = turns := rfl
@[simp] theorem State.turnOf_port (s : State) (p : Port) (turns : List Port) : (s.turnOf p turns).port = p := rfl
@[simp] theorem State.turnOf_io (s : State) (p : Port) (turns : List Port) (q : Port) : (s.turnOf p turns).io q = s.io q := by
  cases q <;> rfl

/-! ### Port streams -/

@[simp] theorem State.setIO_rb (s : State) (p : Port) (io : PortIO) : (s.setIO p io).rb = s.rb := by cases p <;> rfl
@[simp] theorem State.setIO_vmute (s : State) (p : Port) (io : PortIO) : (s.setIO p io).vmute = s.vmute := by cases p <;> rfl
@[simp] theorem State.setIO_gu (s : State) (p : Port) (io : PortIO) : (s.setIO p io).gu = s.gu := by cases p <;> rfl
@[simp] theorem State.setIO_mix (s : State) (p : Port) (io : PortIO) : (s.setIO p io).mix = s.mix := by cases p <;> rfl
@[simp] theorem State.setIO_ring (s : State) (p : Port) (io : PortIO) : (s.setIO p io).ring = s.ring := by cases p <;> rfl
@[simp] theorem State.setIO_fault (s : State) (p : Port) (io : PortIO) : (s.setIO p io).fault = s.fault := by cases p <;> rfl
@[simp] theorem State.setIO_cfg (s : State) (p : Port) (io : PortIO) : (s.setIO p io).cfg = s.cfg := by cases p <;> rfl
@[simp] theorem State.setIO_schedule (s : State) (p : Port) (io : PortIO) : (s.setIO p io).schedule = s.schedule := by cases p <;> rfl
@[simp] theorem State.setIO_port (s : State) (p : Port) (io : PortIO) : (s.setIO p io).port = s.port := by cases p <;> rfl

@[simp] theorem State.setInput_rb (s : State) (p : Port) (ws : List Word) : (s.setInput p ws).rb = s.rb := by cases p <;> rfl
@[simp] theorem State.setInput_vmute (s : State) (p : Port) (ws : List Word) : (s.setInput p ws).vmute = s.vmute := by cases p <;> rfl
@[simp] theorem State.setInput_gu (s : State) (p : Port) (ws : List Word) : (s.setInput p ws).gu = s.gu := by cases p <;> rfl
@[simp] theorem State.setInput_mix (s : State) (p : Port) (ws : List Word) : (s.setInput p ws).mix = s.mix := by cases p <;> rfl
@[simp] theorem State.setInput_ring (s : State) (p : Port) (ws : List Word) : (s.setInput p ws).ring = s.ring := by cases p <;> rfl
@[simp] theorem State.setInput_fault (s : State) (p : Port) (ws : List Word) : (s.setInput p ws).fault = s.fault := by cases p <;> rfl
@[simp] theorem State.setInput_cfg (s : State) (p : Port) (ws : List Word) : (s.setInput p ws).cfg = s.cfg := by cases p <;> rfl
@[simp] theorem State.setInput_schedule (s : State) (p : Port) (ws : List Word) : (s.setInput p ws).schedule = s.schedule := by cases p <;> rfl
@[simp] theorem State.setInput_port (s : State) (p : Port) (ws : List Word) : (s.setInput p ws).port = s.port := by cases p <;> rfl

@[simp] theorem State.respond_rb (s : State) (ws : List Word) : (s.respond ws).rb = s.rb := by
  simp [State.respond]
@[simp] theorem State.respond_vmute (s : State) (ws : List Word) : (s.respond ws).vmute = s.vmute := by
  simp [State.respond]
@[simp] theorem State.respond_gu (s : State) (ws : List Word) : (s.respond ws).gu = s.gu := by
  simp [State.respond]
@[simp] theorem State.respond_mix (s : State) (ws : List Word) : (s.respond ws).mix = s.mix := by
  simp [State.respond]
@[simp] theorem State.respond_ring (s : State) (ws : List Word) : (s.respond ws).ring = s.ring := by
  simp [State.respond]
@[simp] theorem State.respond_fault (s : State) (ws : List Word) : (s.respond ws).fault = s.fault := by
  simp [State.respond]
@[simp] theorem State.respond_cfg (s : State) (ws : List Word) : (s.respond ws).cfg = s.cfg := by
  simp [State.respond]
@[simp] theorem State.respond_schedule (s : State) (ws : List Word) : (s.respond ws).schedule = s.schedule := by
  simp [State.respond]
@[simp] theorem State.respond_port (s : State) (ws : List Word) : (s.respond ws).port = s.port := by
  simp [State.respond]

@[simp] theorem State.setIO_io_same (s : State) (p : Port) (io : PortIO) : (s.setIO p io).io p = io := by
  cases p <;> rfl

theorem State.setIO_io_other (s : State) {p q : Port} (h : q ≠ p) (io : PortIO) : (s.setIO p io).io q = s.io q := by
  cases p <;> cases q <;> first | rfl | exact absurd rfl h

@[simp] theorem State.setInput_input (s : State) (p : Port) (ws : List Word) : ((s.setInput p ws).io p).input = ws := by
  simp [State.setInput]

@[simp] theorem State.setInput_output (s : State) (p q : Port) (ws : List Word) :
    ((s.setInput p ws).io q).output = (s.io q).output := by
  cases p <;> cases q <;> rfl

/-- Responses go to the issuing port, after those sent before (R80, R89). -/
@[simp] theorem State.respond_output (s : State) (ws : List Word) :
    ((s.respond ws).io s.port).output = (s.io s.port).output ++ ws := by
  simp [State.respond]

/-- The other port sees no response. -/
theorem State.respond_io_other (s : State) (ws : List Word) {q : Port} (h : q ≠ s.port) :
    (s.respond ws).io q = s.io q :=
  State.setIO_io_other s h _

@[simp] theorem State.respond_input (s : State) (ws : List Word) (q : Port) :
    ((s.respond ws).io q).input = (s.io q).input := by
  rcases s with ⟨_, _, _, _, _, _, _, _, _, _, p⟩
  cases p <;> cases q <;> rfl

end Sys2Proof.Machine
end

