-- ==== Sys2Proof/Laws/Ops.lean ====
section
/-! SUPPORT. One lemma per shared operation: everything it can do, stated once. -/

namespace Sys2Proof.Machine

/-! ### Arithmetic (R11) -/

theorem sat16_range (x : Int) : -32768 ≤ sat16 x ∧ sat16 x ≤ 32767 := by
  unfold sat16; omega

theorem sat16_of_range {x : Int} (h1 : -32768 ≤ x) (h2 : x ≤ 32767) : sat16 x = x := by
  unfold sat16; omega

/-- A sample holds every integer in `-32768 .. 32767`. -/
theorem sampleOf_toInt {x : Int} (h1 : -32768 ≤ x) (h2 : x ≤ 32767) : (sampleOf x).toInt = x := by
  unfold sampleOf
  rw [BitVec.toInt_ofInt]
  exact Int.bmod_eq_of_le (by norm_num; omega) (by norm_num; omega)

theorem sample_range (x : Sample) : -32768 ≤ x.toInt ∧ x.toInt ≤ 32767 := by
  have h1 := BitVec.le_toInt x
  have h2 := BitVec.toInt_lt (x := x)
  norm_num at h1 h2
  omega

/-- The arithmetic shift of a sample stays in the sample range. -/
theorem asr_range (x : Sample) (k : Nat) : -32768 ≤ asr x.toInt k ∧ asr x.toInt k ≤ 32767 := by
  have hx := sample_range x
  have hp : (0 : Int) < 2 ^ k := by positivity
  have hp1 : (1 : Int) ≤ 2 ^ k := hp
  unfold asr
  constructor
  · apply Int.le_ediv_of_mul_le hp
    nlinarith
  · have : x.toInt / 2 ^ k < 32768 := by
      apply Int.ediv_lt_of_lt_mul hp
      nlinarith
    omega

/-- `|tdiv(a, b)| <= |a|` and the sign is kept, for a positive divisor. -/
theorem tdiv_between (a b : Int) (hb : 0 < b) : min a 0 ≤ tdiv a b ∧ tdiv a b ≤ max a 0 := by
  unfold tdiv
  rcases le_total 0 a with ha | ha
  · have h1 : 0 ≤ a.tdiv b := Int.tdiv_nonneg ha hb.le
    have h2 : a.tdiv b ≤ a := Int.tdiv_le_self b ha
    omega
  · obtain ⟨c, rfl⟩ : ∃ c, a = -c := ⟨-a, by omega⟩
    have hc : 0 ≤ c := by omega
    rw [Int.neg_tdiv]
    have h1 : 0 ≤ c.tdiv b := Int.tdiv_nonneg hc hb.le
    have h2 : c.tdiv b ≤ c := Int.tdiv_le_self b hc
    omega

/-! ### Counters (R30, R213) -/

@[simp] theorem counterOf_toNat {n : Nat} (h : n ≤ counterMax) : (counterOf n).toNat = n := by
  unfold counterOf
  rw [BitVec.toNat_ofNat]
  exact Nat.mod_eq_of_lt (by unfold counterMax at h; omega)

theorem counterOverflows_iff (x : Counter) (n : Nat) : counterOverflows x n = true ↔ counterMax < x.toNat + n := by
  simp [counterOverflows]

/-! ### Faults and checks (R200 to R207) -/

@[simp] theorem raiseFault_eq (i : Instr) (s : State) (code : FaultCode) :
    raiseFault i s code = .next (s.takeFault code i.header) := rfl

/-- A taken fault leaves a halted block. -/
@[simp] theorem takeFault_halted (s : State) (code : FaultCode) (h : Word) : (s.takeFault code h).halted = true := rfl

@[simp] theorem onItsPort_of_eq {i : Instr} {s : State} (h : s.port = i.port)
    (go : Host.Outcome State Fault Refusal) : onItsPort i s go = go := by
  simp [onItsPort, h]

theorem onItsPort_of_ne {i : Instr} {s : State} (h : s.port ≠ i.port) (go : Host.Outcome State Fault Refusal) :
    onItsPort i s go = .next (s.takeFault .wrongPort i.header) := by
  simp [onItsPort, h]

theorem onItsPort_next {i : Instr} {s t : State} {go : Host.Outcome State Fault Refusal}
    (h : onItsPort i s go = .next t) :
    (s.port = i.port ∧ go = .next t) ∨ (s.port ≠ i.port ∧ t = s.takeFault .wrongPort i.header) := by
  unfold onItsPort at h
  split at h
  · rename_i hp; exact .inl ⟨hp, h⟩
  · rename_i hp; exact .inr ⟨hp, by simpa [eq_comm] using h⟩

@[simp] theorem whenUnreserved_false (i : Instr) (s : State) (go : Host.Outcome State Fault Refusal) :
    whenUnreserved i s false go = go := rfl

@[simp] theorem whenUnreserved_true (i : Instr) (s : State) (go : Host.Outcome State Fault Refusal) :
    whenUnreserved i s true go = .next (s.takeFault .reservedOperand i.header) := rfl

theorem whenUnreserved_next {i : Instr} {s t : State} {b : Bool} {go : Host.Outcome State Fault Refusal}
    (h : whenUnreserved i s b go = .next t) :
    (b = false ∧ go = .next t) ∨ (b = true ∧ t = s.takeFault .reservedOperand i.header) := by
  cases b with
  | false => exact .inl ⟨rfl, h⟩
  | true => exact .inr ⟨rfl, by simpa [eq_comm] using h⟩

theorem whenOpen_of_open {i : Instr} {s : State} (h : s.ring.isOpen = true)
    (go : Host.Outcome State Fault Refusal) : whenOpen i s go = go := by
  simp [whenOpen, h]

theorem whenOpen_of_closed {i : Instr} {s : State} (h : s.ring.isOpen = false)
    (go : Host.Outcome State Fault Refusal) :
    whenOpen i s go = .next (s.takeFault .notOpen i.header) := by
  simp [whenOpen, h]

theorem whenOpen_next {i : Instr} {s t : State} {go : Host.Outcome State Fault Refusal}
    (h : whenOpen i s go = .next t) :
    (s.ring.isOpen = true ∧ go = .next t) ∨ (s.ring.isOpen = false ∧ t = s.takeFault .notOpen i.header) := by
  unfold whenOpen at h
  split at h
  · rename_i ho; exact .inl ⟨ho, h⟩
  · rename_i ho; exact .inr ⟨by simpa using ho, by simpa [eq_comm] using h⟩

/-! ### Ring operations -/

theorem Ring.index_of_pos {r : Ring} (h : r.cap ≠ 0#32) (p : Nat) : r.index p = some (p % r.cap.toNat) := by
  simp [Ring.index, h]

theorem Ring.cap_toNat_pos {r : Ring} (h : r.cap ≠ 0#32) : 0 < r.cap.toNat := by
  rcases Nat.eq_zero_or_pos r.cap.toNat with h0 | h0
  · exact absurd (BitVec.eq_of_toNat_eq (by simpa using h0)) h
  · exact h0

/-- Everything a store can do: overflow, or the samples stored from the index of `offset` on. -/
theorem storeAt_next {i : Instr} {s t : State} {offset : Nat} {samples : List Sample}
    (h : storeAt i s offset samples = .next t) :
    (counterMax < s.ring.remain.toNat + samples.length ∧ t = s.takeFault .counterOverflow i.header) ∨
    (s.ring.remain.toNat + samples.length ≤ counterMax ∧ s.ring.cap ≠ 0#32 ∧
      t = s.setRing (s.ring.stored (offset % s.ring.cap.toNat) samples)) := by
  unfold storeAt at h
  by_cases ho : counterMax < s.ring.remain.toNat + samples.length
  · simp only [(counterOverflows_iff _ _).2 ho, if_true, raiseFault_eq, Host.Outcome.next.injEq] at h
    exact .inl ⟨ho, h.symm⟩
  · have hf : counterOverflows s.ring.remain samples.length = false := by
      simpa [counterOverflows] using ho
    simp only [hf, Bool.false_eq_true, if_false] at h
    by_cases hc : s.ring.cap = 0#32
    · simp [Ring.index, hc] at h
    · rw [Ring.index_of_pos hc] at h
      exact .inr ⟨by omega, hc, by simpa [eq_comm] using h⟩

/-- Where a store completes. -/
theorem storeAt_of_fits {i : Instr} {s : State} {offset : Nat} {samples : List Sample}
    (hn : s.ring.remain.toNat + samples.length ≤ counterMax) (hc : s.ring.cap ≠ 0#32) :
    storeAt i s offset samples = .next (s.setRing (s.ring.stored (offset % s.ring.cap.toNat) samples)) := by
  have hf : counterOverflows s.ring.remain samples.length = false := by
    simp [counterOverflows]; omega
  simp [storeAt, hf, Ring.index_of_pos hc]

/-- Everything an accessor can do. -/
theorem respondOpen_next {i : Instr} {s t : State} {ws : List Word} (h : respondOpen i s ws = .next t) :
    (s.port = i.port ∧ s.ring.isOpen = true ∧ t = s.respond ws) ∨ ∃ code, t = s.takeFault code i.header := by
  rcases onItsPort_next h with ⟨hp, h⟩ | ⟨_, h⟩
  · rcases whenOpen_next h with ⟨ho, h⟩ | ⟨_, h⟩
    · exact .inl ⟨hp, ho, by simpa [eq_comm] using h⟩
    · exact .inr ⟨_, h⟩
  · exact .inr ⟨_, h⟩

@[simp] theorem Ring.stored_frame (r : Ring) (b : Nat) (xs : List Sample) :
    (r.stored b xs).isOpen = r.isOpen ∧ (r.stored b xs).cap = r.cap ∧ (r.stored b xs).current = r.current ∧
      (r.stored b xs).called = r.called ∧ (r.stored b xs).volume = r.volume ∧ (r.stored b xs).mute = r.mute :=
  ⟨rfl, rfl, rfl, rfl, rfl, rfl⟩

@[simp] theorem Ring.advanced_frame (r : Ring) :
    r.advanced.isOpen = r.isOpen ∧ r.advanced.cap = r.cap ∧ r.advanced.data = r.data ∧
      r.advanced.called = r.called ∧ r.advanced.volume = r.volume ∧ r.advanced.mute = r.mute :=
  ⟨rfl, rfl, rfl, rfl, rfl, rfl⟩

end Sys2Proof.Machine
end

