-- ==== Sys2Proof/Laws/Exec.lean ====
section
/-! SUPPORT. Everything a command that answers a next state can have done: taken one fault, or had its effect. -/

namespace Sys2Proof.Machine

/-- The state a command without a fault leaves, and what holds where it has an effect (R120 to R193). -/
def CommandEffect (s t : State) : Instr → Prop
  | .chWrite ch _ wave gain freq => t = s.setRegister ch ⟨wave, gain, freq⟩
  | .voiceMute ch m => t = s.setVoiceMute ch m
  | .generate =>
    t = s.setBlock (generateBlock s.cfg s.rb s.vmute s.cfg.blockLen s.gu).2
      (Memory.ofSamples (generateBlock s.cfg s.rb s.vmute s.cfg.blockLen s.gu).1)
  | .mixRead k => k.toNat < s.cfg.blockLen ∧ t = s.respond [sext32 (Memory.read s.mix k.toNat)]
  | .bufOpen cap => (cap ≠ 0#32 ∧ cap.toNat ≤ s.cfg.capacityMax.toNat) ∧ t = s.setRing (Ring.opened cap)
  | .bufWrite offset samples _ =>
    s.ring.isOpen = true ∧ s.ring.cap ≠ 0#32 ∧ s.ring.remain.toNat + samples.length ≤ counterMax ∧
      t = s.setRing (s.ring.stored (offset.toNat % s.ring.cap.toNat) samples)
  | .bufAppend samples _ =>
    s.ring.isOpen = true ∧ s.ring.cap ≠ 0#32 ∧ s.ring.remain.toNat + samples.length ≤ counterMax ∧
      t = s.setRing (s.ring.stored (s.ring.tail % s.ring.cap.toNat) samples)
  | .bufFillSilent => s.ring.isOpen = true ∧ t = s.setRing s.ring.silenced
  | .bufSetVolume v => s.ring.isOpen = true ∧ t = s.setRing { s.ring with volume := v }
  | .bufSetMute m => s.ring.isOpen = true ∧ t = s.setRing { s.ring with mute := m }
  | .bufGetCurrent => s.ring.isOpen = true ∧ t = s.respond (counterWords s.ring.current)
  | .bufGetRemain => s.ring.isOpen = true ∧ t = s.respond (counterWords s.ring.remain)
  | .bufGetCalled => s.ring.isOpen = true ∧ t = s.respond (counterWords s.ring.called)
  | .bufGetVolume => s.ring.isOpen = true ∧ t = s.respond [volumeWord s.ring.volume]
  | .bufGetMute => s.ring.isOpen = true ∧ t = s.respond [muteWord s.ring.mute]
  | .readOne =>
    s.ring.isOpen = true ∧
      ((s.ring.remain = 0#64 ∧ t = s.respond [0#32]) ∨
       (s.ring.remain ≠ 0#64 ∧ s.ring.current.toNat + 1 ≤ counterMax ∧ s.ring.cap ≠ 0#32 ∧
         t = (s.setRing s.ring.advanced).respond
          [sext32 (s.ring.attenuate (Memory.read s.ring.data (s.ring.current.toNat % s.ring.cap.toNat)))]))
  | .callbackDone =>
    s.ring.isOpen = true ∧ s.ring.called.toNat + 1 ≤ counterMax ∧
      t = s.setRing { s.ring with called := counterOf (s.ring.called.toNat + 1) }

/-- Everything a command that answers a next state can have done. -/
theorem exec_next {i : Instr} {s t : State} (h : exec i s = .next t) :
    (∃ code, t = s.takeFault code i.header) ∨ (s.port = i.port ∧ CommandEffect s t i) := by
  have open_next : ∀ {go : Host.Outcome State Fault Refusal}, whenOpen i s go = .next t →
      (∃ code, t = s.takeFault code i.header) ∨ (s.ring.isOpen = true ∧ go = .next t) := by
    intro go h
    rcases whenOpen_next h with h | ⟨_, h⟩
    · exact .inr h
    · exact .inl ⟨_, h⟩
  have store_next : ∀ {offset samples pad}, whenUnreserved i s (payloadReserved samples pad)
        (whenOpen i s (storeAt i s offset samples)) = .next t →
      (∃ code, t = s.takeFault code i.header) ∨
      (s.ring.isOpen = true ∧ s.ring.cap ≠ 0#32 ∧ s.ring.remain.toNat + samples.length ≤ counterMax ∧
        t = s.setRing (s.ring.stored (offset % s.ring.cap.toNat) samples)) := by
    intro offset samples pad h
    rcases whenUnreserved_next h with ⟨_, h⟩ | ⟨_, h⟩
    · rcases open_next h with h | ⟨ho, h⟩
      · exact .inl h
      · rcases storeAt_next h with ⟨_, h⟩ | ⟨h1, h2, h⟩
        · exact .inl ⟨_, h⟩
        · exact .inr ⟨ho, h2, h1, h⟩
    · exact .inl ⟨_, h⟩
  cases i <;> rcases onItsPort_next h with ⟨hp, h⟩ | ⟨_, h⟩ <;> (try exact .inl ⟨_, h⟩) <;>
    simp only [CommandEffect]
  case chWrite =>
    rcases whenUnreserved_next h with ⟨_, h⟩ | ⟨_, h⟩
    · exact .inr ⟨hp, by simpa [eq_comm] using h⟩
    · exact .inl ⟨_, h⟩
  case voiceMute => exact .inr ⟨hp, by simpa [eq_comm] using h⟩
  case generate => exact .inr ⟨hp, by simpa [eq_comm] using h⟩
  case mixRead =>
    split at h
    · exact .inl ⟨.indexRange, by simpa [eq_comm] using h⟩
    · rename_i hk
      refine .inr ⟨hp, ?_, by simpa [eq_comm] using h⟩
      unfold indexOutOfRange at hk
      rw [decide_eq_true_eq] at hk
      omega
  case bufOpen =>
    split at h
    · exact .inl ⟨.badCapacity, by simpa [eq_comm] using h⟩
    · rename_i hk
      refine .inr ⟨hp, ?_, by simpa [eq_comm] using h⟩
      unfold badCapacity at hk
      rw [Bool.or_eq_true, beq_iff_eq, decide_eq_true_eq, not_or] at hk
      exact ⟨fun e => hk.1 (by simp [e]), by omega⟩
  case bufWrite =>
    rcases store_next h with h | h
    · exact .inl h
    · exact .inr ⟨hp, h⟩
  case bufAppend =>
    rcases store_next h with h | h
    · exact .inl h
    · exact .inr ⟨hp, h⟩
  case readOne =>
    rcases open_next h with h | ⟨ho, h⟩
    · exact .inl h
    · split at h
      · rename_i hr
        exact .inr ⟨hp, ho, .inl ⟨hr, by simpa [eq_comm] using h⟩⟩
      · rename_i hr
        split at h
        · exact .inl ⟨.counterOverflow, by simpa [eq_comm] using h⟩
        · rename_i hc
          rw [counterOverflows_iff] at hc
          by_cases hcap : s.ring.cap = 0#32
          · simp [Ring.index, hcap] at h
          · rw [Ring.index_of_pos hcap] at h
            exact .inr ⟨hp, ho, .inr ⟨hr, by omega, hcap, by simpa [eq_comm] using h⟩⟩
  case callbackDone =>
    rcases open_next h with h | ⟨ho, h⟩
    · exact .inl h
    · split at h
      · exact .inl ⟨.counterOverflow, by simpa [eq_comm] using h⟩
      · rename_i hc
        rw [counterOverflows_iff] at hc
        exact .inr ⟨hp, ho, by omega, by simpa [eq_comm] using h⟩
  all_goals
    rcases open_next h with h | ⟨ho, h⟩
    · exact .inl h
    · exact .inr ⟨hp, ho, by simpa [eq_comm] using h⟩

/-- A command on a well-formed ring state always answers a next state (R13, R200): the one stop, an open ring of
capacity 0, is excluded. -/
theorem exec_completes (i : Instr) (s : State) (h : s.ring.isOpen = true → s.ring.cap ≠ 0#32) :
    ∃ t, exec i s = .next t := by
  have port : ∀ {go}, (∃ t, go = .next t) → ∃ t, onItsPort i s go = .next t := by
    intro go hg
    unfold onItsPort
    split
    · exact hg
    · exact ⟨_, rfl⟩
  have free : ∀ {b go}, (∃ t, go = .next t) → ∃ t, whenUnreserved i s b go = .next t := by
    intro b go hg
    cases b
    · exact hg
    · exact ⟨_, rfl⟩
  have opened : ∀ {go}, (s.ring.cap ≠ 0#32 → ∃ t, go = .next t) → ∃ t, whenOpen i s go = .next t := by
    intro go hg
    unfold whenOpen
    split
    · rename_i ho; exact hg (h ho)
    · exact ⟨_, rfl⟩
  have stored : ∀ {offset samples}, s.ring.cap ≠ 0#32 → ∃ t, storeAt i s offset samples = .next t := by
    intro offset samples hc
    by_cases hn : s.ring.remain.toNat + samples.length ≤ counterMax
    · exact ⟨_, storeAt_of_fits hn hc⟩
    · refine ⟨s.takeFault .counterOverflow i.header, ?_⟩
      simp [storeAt, counterOverflows, Nat.lt_of_not_le hn]
  cases i
  case chWrite => exact port (free ⟨_, rfl⟩)
  case mixRead => refine port ?_; split <;> exact ⟨_, rfl⟩
  case bufOpen => refine port ?_; split <;> exact ⟨_, rfl⟩
  case bufWrite => exact port (free (opened stored))
  case bufAppend => exact port (free (opened stored))
  case readOne =>
    refine port (opened fun hc => ?_)
    rw [Ring.index_of_pos hc]
    split
    · exact ⟨_, rfl⟩
    · split <;> exact ⟨_, rfl⟩
  case callbackDone => refine port (opened fun _ => ?_); split <;> exact ⟨_, rfl⟩
  case voiceMute => exact port ⟨_, rfl⟩
  case generate => exact port ⟨_, rfl⟩
  all_goals exact port (opened fun _ => ⟨_, rfl⟩)

end Sys2Proof.Machine
end

