-- ==== Sys2Proof/Laws/Step.lean ====
section
/-! SUPPORT. Everything a step can do, stated once. -/

namespace Sys2Proof.Machine

/-- Taking a turn: no command, a command's fault at the port, or a complete command. -/
theorem takeTurn_cases (s : State) (p : Port) (turns : List Port) :
    ((s.io p).input = [] ∧ takeTurn s p turns = .idle { s with schedule := turns }) ∨
    (∃ h ws e, (s.io p).input = h :: ws ∧ decode (h :: ws) = .error e ∧
      takeTurn s p turns = .raised (((s.turnOf p turns).setInput p ws).takeFault (arrivalFault p h) h)) ∨
    (∃ i rest, decode (s.io p).input = .ok (i, rest) ∧
      takeTurn s p turns = .command i ((s.turnOf p turns).setInput p rest)) := by
  unfold takeTurn
  cases hin : (s.io p).input with
  | nil => exact .inl ⟨rfl, rfl⟩
  | cons h ws =>
    cases hd : decode (h :: ws) with
    | error e => exact .inr (.inl ⟨h, ws, e, rfl, hd, by simp [hd]⟩)
    | ok ir => exact .inr (.inr ⟨ir.1, ir.2, by simp, by simp [hd]⟩)

/-- Everything a step that answers a next state can be: a halted block, no turn left, a turn with no command, the
fault of words that make no command, or one command. -/
theorem step_cases {s t : State} (h : step s = .next t) :
    s.cfg.wf = true ∧
    ((s.halted = true ∧ t = s) ∨
     (s.halted = false ∧ s.schedule = [] ∧ t = s) ∨
     ∃ p turns, s.halted = false ∧ s.schedule = p :: turns ∧
      (((s.io p).input = [] ∧ t = { s with schedule := turns }) ∨
       (∃ hd ws e, (s.io p).input = hd :: ws ∧ decode (hd :: ws) = .error e ∧
         t = ((s.turnOf p turns).setInput p ws).takeFault (arrivalFault p hd) hd) ∨
       (∃ i rest, decode (s.io p).input = .ok (i, rest) ∧
         exec i ((s.turnOf p turns).setInput p rest) = .next t))) := by
  unfold step at h
  split at h
  case isFalse => exact absurd h (by simp)
  rename_i hwf
  refine ⟨hwf, ?_⟩
  unfold arrive at h
  cases hh : s.halted with
  | true => simp only [hh, if_true, Host.Outcome.next.injEq] at h; exact .inl ⟨rfl, h.symm⟩
  | false =>
    simp only [hh, Bool.false_eq_true, if_false] at h
    cases hs : s.schedule with
    | nil => simp only [hs, Host.Outcome.next.injEq] at h; exact .inr (.inl ⟨rfl, rfl, h.symm⟩)
    | cons p turns =>
      simp only [hs] at h
      refine .inr (.inr ⟨p, turns, rfl, rfl, ?_⟩)
      rcases takeTurn_cases s p turns with ⟨h1, h2⟩ | ⟨hd, ws, e, h1, h2, h3⟩ | ⟨i, rest, h1, h2⟩
      · simp only [h2, Host.Outcome.next.injEq] at h; exact .inl ⟨h1, h.symm⟩
      · simp only [h3, Host.Outcome.next.injEq] at h; exact .inr (.inl ⟨hd, ws, e, h1, h2, h.symm⟩)
      · simp only [h2] at h; exact .inr (.inr ⟨i, rest, h1, h⟩)

end Sys2Proof.Machine
end

