-- ==== Sys2Proof/Laws/Synth.lean ====
section
/-! SUPPORT. What the parts of VoiceSample and of the block can do: ranges of the primed values, and the block one
frame at a time. -/

namespace Sys2Proof.Machine

theorem Config.wf_iff (c : Config) :
    c.wf = true ↔ 60 ≤ c.sampleRate ∧ c.refRate ≠ 0 ∧ c.gainScale ≠ 0 ∧ c.rampStep ≠ 0 ∧
      c.capacityMax.toNat ≠ 0 ∧ c.cbLen ≠ 0 := by
  simp only [Config.wf, Bool.and_eq_true, bne_iff_ne, and_assoc]
  exact and_congr decide_eq_true_iff Iff.rfl

theorem phaseUnit_pos (c : Config) : 0 < c.phaseUnit := Nat.two_pow_pos _

theorem phaseMod_eq (c : Config) : c.phaseMod = 32 * c.phaseUnit := rfl

theorem phaseMod_pos (c : Config) : 0 < c.phaseMod := by
  have := phaseUnit_pos c
  rw [phaseMod_eq]; omega

/-- `0 <= phase' < PM` (R26, R135). -/
theorem nextPhase_lt (c : Config) (r : ChannelRegister) (g : GeneratorUnit) : nextPhase c r g < c.phaseMod :=
  Nat.mod_lt _ (phaseMod_pos c)

/-- `0 <= drift' < SAMPLE_RATE` (R26, R135). -/
theorem nextDrift_lt (c : Config) (r : ChannelRegister) (g : GeneratorUnit) (h : 0 < c.sampleRate) :
    nextDrift c r g < c.sampleRate :=
  Nat.mod_lt _ h

/-- The specified gain is at most the full gain range (R132). -/
theorem specGain_le (c : Config) (r : ChannelRegister) (m : Bool) : specGain c r m ≤ c.gainFull := by
  unfold specGain Config.gainFull gainMax
  split
  · omega
  · have := r.gain.isLt
    exact Nat.mul_le_mul_right _ (by omega)

/-- The ramp moves toward the specified gain, at most RAMP_STEP, and does not overshoot (R133). -/
theorem rampGain_between (c : Config) (cur spec : Nat) :
    (min cur spec ≤ rampGain c cur spec ∧ rampGain c cur spec ≤ max cur spec) ∧
      rampGain c cur spec ≤ cur + c.rampStep ∧ cur ≤ rampGain c cur spec + c.rampStep := by
  unfold rampGain
  split
  · omega
  · split <;> omega

theorem rampGain_le (c : Config) {cur spec : Nat} (h1 : cur ≤ c.gainFull) (h2 : spec ≤ c.gainFull) :
    rampGain c cur spec ≤ c.gainFull := by
  have := (rampGain_between c cur spec).1
  omega

/-- A silent voice answers 0 and is left idle (R131). -/
theorem voiceSample_silent {c : Config} {r : ChannelRegister} {g : GeneratorUnit} (m : Bool)
    (h : isSilent r g = true) : voiceSample c r m g = (0, GeneratorUnit.idle) := by
  simp [voiceSample, h]

/-- Every other voice sounds (R131). -/
theorem voiceSample_sounding {c : Config} {r : ChannelRegister} {g : GeneratorUnit} (m : Bool)
    (h : isSilent r g = false) : voiceSample c r m g = (soundingOut c r m g, soundingUnit c r m g) := by
  simp [voiceSample, h]

@[simp] theorem generateBlock_zero (c : Config) (rb : PerVoice ChannelRegister) (vm : PerVoice Bool)
    (gu : PerVoice GeneratorUnit) : generateBlock c rb vm 0 gu = ([], gu) := rfl

theorem generateBlock_succ (c : Config) (rb : PerVoice ChannelRegister) (vm : PerVoice Bool) (n : Nat)
    (gu : PerVoice GeneratorUnit) :
    generateBlock c rb vm (n + 1) gu =
      (frameSample c rb vm gu :: (generateBlock c rb vm n (frameUnits c rb vm gu)).1,
        (generateBlock c rb vm n (frameUnits c rb vm gu)).2) := rfl

/-- A block has as many samples as frames (R142). -/
@[simp] theorem generateBlock_length (c : Config) (rb : PerVoice ChannelRegister) (vm : PerVoice Bool) (n : Nat)
    (gu : PerVoice GeneratorUnit) : (generateBlock c rb vm n gu).1.length = n := by
  induction n generalizing gu with
  | zero => rfl
  | succ n ih => simp [generateBlock_succ, ih]

@[simp] theorem frameUnits_get (c : Config) (rb : PerVoice ChannelRegister) (vm : PerVoice Bool)
    (gu : PerVoice GeneratorUnit) (v : Voice) :
    (frameUnits c rb vm gu).get v = (voiceSample c (rb.get v) (vm.get v) (gu.get v)).2 := by
  simp [frameUnits]

end Sys2Proof.Machine
end

