-- ==== Sys2Proof/Tests/Slice0.lean ====
section
/-! SUPPORT. Tests. Expected values are those of spec/95_test_vectors.md, whose vector ids the names and docstrings
give, or of the encoding tables of spec/30_encoding.md. Then the witnesses: for each obligation that has hypotheses, a
concrete state and operands that meet them all. -/

namespace Sys2Proof.Tests

open Sys2Proof Sys2Proof.Machine

/-! ### Helpers -/

/-- A wave table from 32 integers. -/
def table (f : Nat → Int) : Vector Sample 32 := ⟨⟨(List.range 32).map fun i => BitVec.ofInt 16 (f i)⟩, rfl⟩

/-- TCFG, the test configuration of 95_test_vectors.md section 1. -/
def tcfg : Config where
  sampleRate := 480
  refRate := 240
  phaseFrac := 15
  lookup := .floor
  gainScale := 1
  rampStep := 4
  dcCenter := 0
  waveRom := ⟨⟨[table fun i => ((i : Int) - 16) * 1024, table fun i => if i < 16 then 8192 else -8192,
    table fun i => if i < 16 then -16000 + 2000 * i else 16000 - 2000 * ((i : Int) - 16),
    table fun _ => 0, table fun _ => 0, table fun _ => 0, table fun _ => 0, table fun _ => 0]⟩, rfl⟩
  capacityMax := 65536
  cbLen := 4

/-- The reset state under TCFG. -/
def start : State := State.resetWith tcfg

/-- An open ring of capacity 4 with these samples and counters, other fields as BUF_OPEN leaves them. -/
def ring4 (samples : List Sample) (current remain : Counter) : Ring :=
  { Ring.opened 4 with data := Memory.ofSamples samples, current := current, remain := remain }

/-- The reset state with such a ring. -/
def withRing (r : Ring) : State := { start with ring := r }

/-- One command's words arrive on a port and one step is taken. -/
def take (s : State) (p : Port) (ws : List Word) : Option State :=
  match step (s.offer p ws) with
  | .next t => some t
  | .fault _ => none
  | .refused _ => none

/-- The fault record one command leaves, as numbers. -/
def faultOf (s : State) (p : Port) (ws : List Word) : Option (Option (Nat × Port × Word)) :=
  (take s p ws).map fun t => t.fault.map fun r => (r.code.number, r.port, r.header)

/-- The samples of the mix buffer. -/
def mixSamples (s : State) : List Int := (List.range s.cfg.blockLen).map fun k => (Memory.read s.mix k).toInt

/-- The samples of the ring. -/
def ringSamples (r : Ring) : List Int := (List.range r.cap.toNat).map fun k => (Memory.read r.data k).toInt

/-- The response words of one command. -/
def responses (s : State) (p : Port) (ws : List Word) : Option (List Word) :=
  (take s p ws).map fun t => (t.io p).output

/-! ### WellFormed: each check refuses an ill-formed term -/

theorem test_wf_too_many_samples_refused (offset : BitVec 64) (samples : List Sample) (pad : BitVec 16)
    (h : samples.length = 65536) :
    (Instr.bufAppend samples pad).wf = false ∧ (Instr.bufWrite offset samples pad).wf = false := by
  rw [← Bool.not_eq_true, ← Bool.not_eq_true, bufAppend_wf_iff, bufWrite_wf_iff, h]
  omega

theorem test_wf_most_samples_accepted (offset : BitVec 64) (samples : List Sample) (pad : BitVec 16)
    (h : samples.length = 65535) :
    (Instr.bufAppend samples pad).wf = true ∧ (Instr.bufWrite offset samples pad).wf = true := by
  rw [bufAppend_wf_iff, bufWrite_wf_iff, h]
  omega

/-- A sample list of either length there is. -/
theorem test_wf_lengths_exist : ∀ n : Nat, ∃ samples : List Sample, samples.length = n :=
  fun n => ⟨List.replicate n 0, List.length_replicate⟩

theorem test_wf_pad_of_even_count_refused :
    (Instr.bufWrite 0 [1, 2] 5).wf = false ∧ (Instr.bufAppend [] 5).wf = false := by decide

theorem test_wf_config_bounds_refused :
    tcfg.wf = true ∧ { tcfg with sampleRate := 59 }.wf = false ∧ { tcfg with refRate := 0 }.wf = false ∧
    { tcfg with gainScale := 0 }.wf = false ∧ { tcfg with rampStep := 0 }.wf = false ∧
    { tcfg with capacityMax := 0 }.wf = false ∧ { tcfg with cbLen := 0 }.wf = false := by decide

/-! ### Decode: words written out from the encoding tables (30_encoding.md sections 2 to 4), every constructor -/

/-- 0x01 ch 5; word: reserved 00000, wave 010, gain 1010, freq 0000 1100 0000 0000 0000. -/
theorem test_decode_ch_write :
    decode [0b00000001000001010000000000000000#32, 0b00000010101000001100000000000000#32] =
      .ok (.chWrite 5 0 2 10 0xC000, []) := by decide

/-- E27: bit 27 of the channel register word is a reserved bit. -/
theorem test_decode_ch_write_reserved_bit :
    decode [0x01000000#32, 0x08000000#32] = .ok (.chWrite 0 1 0 0 0, []) := by decide

/-- E4. -/
theorem test_decode_voice_mute : decode [0b00000010000001110000000000000001#32] = .ok (.voiceMute 7 true, []) := by
  decide

/-- E6; the words after the command are left. -/
theorem test_decode_generate : decode [0x03000000#32, 0x12345678#32] = .ok (.generate, [0x12345678#32]) := by decide

/-- E8. -/
theorem test_decode_mix_read : decode [0x0400FFFF#32] = .ok (.mixRead 65535, []) := by decide

theorem test_decode_buf_open : decode [0x10000000#32, 0x00001000#32] = .ok (.bufOpen 4096, []) := by decide

/-- E28, and E21. -/
theorem test_decode_buf_write :
    decode [0x11000003#32, 0x00000002#32, 0x00000001#32, 0x0002FFFF#32, 0x0000FFFD#32] =
      .ok (.bufWrite 0x100000002 [-1, 2, -3] 0, []) ∧
    decode [0x11000000#32, 0x00000007#32, 0#32] = .ok (.bufWrite 7 [] 0, []) := by decide

/-- P1; and a payload whose unused half is set (W6). -/
theorem test_decode_buf_append :
    decode [0x12000003#32, 0xFF380064#32, 0x0000012C#32] = .ok (.bufAppend [100, -200, 300] 0, []) ∧
    decode [0x12000001#32, 0x00010005#32] = .ok (.bufAppend [5] 1, []) := by decide

theorem test_decode_ring_control :
    decode [0x13000000#32] = .ok (.bufFillSilent, []) ∧ decode [0x14000007#32] = .ok (.bufSetVolume 7, []) ∧
    decode [0x15000001#32] = .ok (.bufSetMute true, []) ∧ decode [0x16000000#32] = .ok (.bufGetCurrent, []) ∧
    decode [0x17000000#32] = .ok (.bufGetRemain, []) ∧ decode [0x18000000#32] = .ok (.bufGetCalled, []) ∧
    decode [0x19000000#32] = .ok (.bufGetVolume, []) ∧ decode [0x1A000000#32] = .ok (.bufGetMute, []) := by decide

theorem test_decode_consumer :
    decode [0x20000000#32] = .ok (.readOne, []) ∧ decode [0x21000000#32] = .ok (.callbackDone, []) := by decide

/-- E2, E3, E5, E7, E9 to E16, E18, E20, E26: illegal headers. -/
theorem test_decode_illegal_headers :
    [0x0107FFFF#32, 0x01080000#32, 0x02000002#32, 0x03000001#32, 0x04010000#32, 0x00000000#32, 0x05000000#32,
      0x0F000000#32, 0x1B000000#32, 0x1F000000#32, 0x22000000#32, 0xFF000000#32, 0x14000008#32, 0x15000002#32,
      0x21000001#32].all (fun h => selectRow h == none) = true := by decide

/-- E1, B5, W9: streams that end inside a command. -/
theorem test_decode_truncated :
    decode [0x01070000#32] = .error .truncated ∧ decode [0x10000000#32] = .error .truncated ∧
    decode [0x11000003#32, 0#32, 0#32, 0x00020001#32] = .error .truncated := by decide

/-- E1, E21 to E23: lengths in words (R93). -/
theorem test_command_lengths :
    commandLength 0x01070000#32 = 2 ∧ commandLength 0x11000000#32 = 3 ∧ commandLength 0x1100FFFF#32 = 3 + 32768 ∧
    commandLength 0x12000001#32 = 2 ∧ commandLength 0x20000000#32 = 1 := by decide

/-- R96: lines of assembler text and the words the vectors give for them (R-1, W1, P1, B8). -/
theorem test_assemble_text :
    assembleText "CH_WRITE 2, 1, 15, 0x10000" = some [0x01020000#32, 0x01F10000#32] ∧
    assembleText "BUF_WRITE 6, [10, 20, 30]" =
      some [0x11000003#32, 0x00000006#32, 0x00000000#32, 0x0014000A#32, 0x0000001E#32] ∧
    assembleText "BUF_APPEND [100, -200, 300]" = some [0x12000003#32, 0xFF380064#32, 0x0000012C#32] ∧
    assembleText "BUF_SET_VOLUME 3" = some [0x14000003#32] ∧ assembleText "BUF_SET_VOLUME 8" = none := by
  decide +kernel

/-- The host's entry points: a table word with its operand words zero decodes, and runs as the first command after
reset. -/
theorem test_table_words :
    decodeTableWord 32 0x01070000 = some (.chWrite 7 0 0 0 0) ∧ decodeTableWord 32 0x12000001 = some (.bufAppend [0] 0) ∧
    decodeTableWord 64 0x0000002A10000000 = some (.bufOpen 42) ∧ decodeTableWord 32 0x03000001 = none := by decide

theorem test_fetch_word_runs :
    (match step (start.withFetchWord 64 0x01F1000001020000) with
      | .next t => t.rb.get 2 == ⟨1, 15, 0x10000⟩
      | _ => false) = true ∧
    (match step (start.withFetchWord 32 0x20000000) with
      | .next t => t.fault == some ⟨.notOpen, .consumer, 0x20000000#32⟩
      | _ => false) = true := by decide

/-! ### CH_WRITE, VOICE_MUTE -/

/-- R-2. -/
theorem test_ch_write_r2 :
    (take start .producer [0x01070000#32, 0x07FFFFFF#32]).map (fun t => (t.rb.get 7, t.rb.get 6, t.fault)) =
      some (⟨7, 15, 0xFFFFF⟩, ⟨0, 0, 0⟩, none) := by decide

/-- R-5, R-6, R-7. -/
theorem test_ch_write_faults :
    faultOf start .producer [0x01000000#32] = some (some (4, .producer, 0x01000000#32)) ∧
    faultOf start .producer [0x01000000#32, 0x08000000#32] = some (some (2, .producer, 0x01000000#32)) ∧
    faultOf start .consumer [0x01000000#32, 0x00F10000#32] = some (some (3, .consumer, 0x01000000#32)) := by decide

/-- R-4. -/
theorem test_voice_mute_r4 :
    (take start .producer [0x02030001#32]).map (fun t => (t.vmute.get 3, t.vmute.get 2)) = some (true, false) ∧
    (take { start with vmute := PerVoice.fill true } .producer [0x02030000#32]).map
      (fun t => (t.vmute.get 3, t.vmute.get 2)) = some (false, true) := by decide

/-! ### GENERATE, MIX_READ -/

/-- The start of G1: one saw on voice 0. -/
def saw (c : Config) : State :=
  { State.resetWith c with rb := (PerVoice.fill ⟨0, 0, 0⟩ : PerVoice ChannelRegister).set 0 ⟨0, 15, 0x10000⟩ }

/-- The end of G1, with a register for voice 0. -/
def afterG1 (r : ChannelRegister) : State :=
  { start with
    rb := (PerVoice.fill ⟨0, 0, 0⟩ : PerVoice ChannelRegister).set 0 r
    gu := (PerVoice.fill GeneratorUnit.idle).set 0 ⟨262144, 0, 15, some 0, 0x10000⟩
    mix := Memory.ofSamples [-512, -955, -1331, -1536, -1408, -1280, -1152, -1024] }

/-- G1 and P2: the ramp over a saw. -/
theorem test_generate_g1 :
    (take (saw tcfg) .producer [0x03000000#32]).map (fun t => (mixSamples t, t.gu.get 0)) =
      some ([-512, -955, -1331, -1536, -1408, -1280, -1152, -1024], ⟨262144, 0, 15, some 0, 0x10000⟩) := by
  decide +kernel

/-- G7 (fade-out to silence), and G8b (a new note keeps the latched waveform). -/
theorem test_generate_g7_g8b :
    (take (afterG1 ⟨0, 0, 0x10000⟩) .producer [0x03000000#32]).map (fun t => (mixSamples t, t.gu.get 0)) =
      some ([-657, -358, -128, 0, 0, 0, 0, 0], GeneratorUnit.idle) ∧
    (take (afterG1 ⟨2, 15, 0x8000⟩) .producer [0x03000000#32]).map (fun t => (mixSamples t, t.gu.get 0)) =
      some ([-1024, -896, -896, -768, -768, -640, -640, -512], ⟨393216, 0, 15, some 0, 0x8000⟩) := by
  decide +kernel

/-- G17: MIX_READ 1, and MIX_READ 8 at BLOCK_LEN. -/
theorem test_mix_read_g17 :
    responses (afterG1 ⟨0, 15, 0x10000⟩) .producer [0x04000001#32] = some [0xFFFFFC45#32] ∧
    faultOf (afterG1 ⟨0, 15, 0x10000⟩) .producer [0x04000008#32] = some (some (7, .producer, 0x04000008#32)) := by
  decide +kernel

/-- G5 (LINEAR, at k = 0), G4 (drift at k = 0), G3 (the wrapping sample), G10 (saturation): VoiceSample and Mix. -/
theorem test_voice_sample_parts :
    lookupLinear { tcfg with lookup := .linear } 2 16384 0 = -15000 ∧
    (voiceSample tcfg ⟨1, 15, 3⟩ false GeneratorUnit.idle).2 = ⟨1, 240, 4, some 1, 3⟩ ∧
    (voiceSample { tcfg with rampStep := 15 } ⟨1, 15, 0x10000⟩ false ⟨1015808, 0, 15, some 0, 0x10000⟩) =
      (8192, ⟨0, 0, 15, some 1, 0x10000⟩) ∧
    mixOf { tcfg with dcCenter := 32767 } (fun v => if v = 0 then 2184 else 0) = 32767 := by decide +kernel

/-! ### Ring control -/

/-- B1, B2, B3, B4. -/
theorem test_buf_open :
    (take start .producer [0x10000000#32, 0x00010000#32]).map (fun t => t.ring) =
      some ⟨true, 65536, [], 0, 0, 0, 7, false⟩ ∧
    faultOf start .producer [0x10000000#32, 0#32] = some (some (6, .producer, 0x10000000#32)) ∧
    faultOf start .producer [0x10000000#32, 0x00010001#32] = some (some (6, .producer, 0x10000000#32)) := by decide

/-- B7. -/
theorem test_fill_silent_b7 :
    (take (withRing (ring4 [5, 6, 7, 8] 9 1)) .producer [0x13000000#32]).map (fun t => t.ring) =
      some (ring4 [] 0 4) := by decide

/-- B8, B9. -/
theorem test_volume_and_mute :
    (take (withRing (ring4 [] 0 0)) .producer [0x14000003#32]).map (fun t => t.ring.volume) = some 3 ∧
    (take (withRing (ring4 [] 0 0)) .producer [0x15000001#32]).map (fun t => t.ring.mute) = some true ∧
    responses (withRing { ring4 [] 0 0 with volume := 3 }) .producer [0x19000000#32] = some [3#32] ∧
    responses (withRing { ring4 [] 0 0 with mute := true }) .producer [0x1A000000#32] = some [1#32] := by decide

/-- B10, B11; a callback count of `2^32 + 5` reads likewise (E29). -/
theorem test_counter_reads :
    responses (withRing (ring4 [] 0x100000005 0)) .producer [0x16000000#32] = some [5#32, 1#32] ∧
    responses (withRing (ring4 [] 0 3)) .producer [0x17000000#32] = some [3#32, 0#32] ∧
    responses (withRing { ring4 [] 0 0 with called := 0x100000005 }) .producer [0x18000000#32] =
      some [5#32, 1#32] := by decide

/-- B12 to B15. -/
theorem test_ring_control_faults :
    faultOf start .producer [0x16000000#32] = some (some (5, .producer, 0x16000000#32)) ∧
    faultOf start .producer [0x13000000#32] = some (some (5, .producer, 0x13000000#32)) ∧
    faultOf start .producer [0x14000003#32] = some (some (5, .producer, 0x14000003#32)) ∧
    faultOf (withRing (ring4 [] 0 0)) .consumer [0x17000000#32] = some (some (3, .consumer, 0x17000000#32)) := by
  decide

/-! ### Ring data -/

/-- The ring's samples and `remain` after one command. -/
def ringAfter (r : Ring) (ws : List Word) : Option (List Int × Counter) :=
  (take (withRing r) .producer ws).map fun t => (ringSamples t.ring, t.ring.remain)

/-- W1, W3, W4: wrapping, longer than the ring, and at offset `2^64 - 1`. -/
theorem test_buf_write_w1_w3_w4 :
    ringAfter (ring4 [] 0 0) [0x11000003#32, 6#32, 0#32, 0x0014000A#32, 0x0000001E#32] =
      some ([30, 0, 10, 20], 3) ∧
    ringAfter (ring4 [] 0 0) [0x11000006#32, 0#32, 0#32, 0x00020001#32, 0x00040003#32, 0x00060005#32] =
      some ([5, 6, 3, 4], 6) ∧
    ringAfter (ring4 [] 0 0) [0x11000001#32, 0xFFFFFFFF#32, 0xFFFFFFFF#32, 7#32] = some ([0, 0, 0, 7], 1) := by
  decide +kernel

/-- W7, W8, W9: priority of the faults. -/
theorem test_buf_write_faults :
    faultOf start .producer [0x12000001#32, 0x00010005#32] = some (some (2, .producer, 0x12000001#32)) ∧
    faultOf start .producer [0x11000001#32, 0#32, 0#32, 5#32] = some (some (5, .producer, 0x11000001#32)) ∧
    faultOf (withRing (ring4 [] 0 0)) .producer [0x11000003#32, 0#32, 0#32, 0x00020001#32] =
      some (some (4, .producer, 0x11000003#32)) := by decide

/-- W2, W12. -/
theorem test_buf_append_w2_w12 :
    ringAfter (ring4 [0, 0, 7, 0] 2 1) [0x12000002#32, 0x00090008#32] = some ([9, 0, 7, 8], 3) ∧
    ringAfter (ring4 [1, 2, 3, 4] 0 4) [0x12000001#32, 9#32] = some ([9, 2, 3, 4], 5) := by decide +kernel

/-- W6, W10. -/
theorem test_buf_append_faults :
    faultOf (withRing (ring4 [] 0 0)) .producer [0x12000001#32, 0x00010005#32] =
      some (some (2, .producer, 0x12000001#32)) ∧
    (take (withRing (ring4 [1] 0 0xFFFFFFFFFFFFFFFF)) .producer [0x12000001#32, 1#32]).map
        (fun t => (t.fault, t.ring)) =
      some (some ⟨.counterOverflow, .producer, 0x12000001#32⟩, ring4 [1] 0 0xFFFFFFFFFFFFFFFF) := by decide

/-! ### The consumer port -/

/-- A1, A2, A5. -/
theorem test_read_one :
    (take (withRing (ring4 [9, 0, 7, 8] 2 3)) .consumer [0x20000000#32]).map (fun t => (t.consumer.output, t.ring)) =
      some ([7#32], ring4 [9, 0, 7, 8] 3 2) ∧
    (take (withRing (ring4 [9] 5 0)) .consumer [0x20000000#32]).map (fun t => (t.consumer.output, t.ring)) =
      some ([0#32], ring4 [9] 5 0) ∧
    (take (withRing (ring4 [9] 0xFFFFFFFFFFFFFFFF 0)) .consumer [0x20000000#32]).map (fun t => t.fault) =
      some none := by decide

/-- The attenuation table of section 2.6: rows 32767, -32768, -1, 1, -100, 100 at volumes 0 to 7, and mute. -/
theorem test_attenuation_table :
    ([32767, -32768, -1, 1, -100, 100].map fun x =>
      (List.range 8).map fun v => ({ Ring.closed with volume := BitVec.ofNat 3 v }.attenuate x).toInt) =
      [[0, 511, 1023, 2047, 4095, 8191, 16383, 32767], [0, -512, -1024, -2048, -4096, -8192, -16384, -32768],
        [0, -1, -1, -1, -1, -1, -1, -1], [0, 0, 0, 0, 0, 0, 0, 1], [0, -2, -4, -7, -13, -25, -50, -100],
        [0, 1, 3, 6, 12, 25, 50, 100]] ∧
    { Ring.closed with mute := true }.attenuate 100 = 0 := by decide +kernel

/-- A6, A7. -/
theorem test_callback_done :
    (take (withRing { ring4 [] 0 0 with called := 5 }) .consumer [0x21000000#32]).map (fun t => t.ring.called) =
      some 6 ∧
    faultOf (withRing { ring4 [] 0 0 with called := 0xFFFFFFFFFFFFFFFF }) .consumer [0x21000000#32] =
      some (some (8, .consumer, 0x21000000#32)) := by decide

/-- A4, A8 to A10. -/
theorem test_consumer_faults :
    faultOf (withRing (ring4 [] 0xFFFFFFFFFFFFFFFF 1)) .consumer [0x20000000#32] =
      some (some (8, .consumer, 0x20000000#32)) ∧
    faultOf start .consumer [0x20000000#32] = some (some (5, .consumer, 0x20000000#32)) ∧
    faultOf start .consumer [0x21000000#32] = some (some (5, .consumer, 0x21000000#32)) ∧
    faultOf (withRing (ring4 [] 0 0)) .producer [0x20000000#32] = some (some (3, .producer, 0x20000000#32)) := by
  decide

/-- E19 (X3). -/
theorem test_illegal_before_wrong_port :
    faultOf (withRing (ring4 [] 0 0)) .consumer [0x14000008#32] = some (some (1, .consumer, 0x14000008#32)) := by
  decide

/-- X1: a halted block takes nothing. -/
theorem test_halted_takes_nothing :
    let s := { saw tcfg with fault := some ⟨.notOpen, .producer, 0x13000000#32⟩ }
    take s .producer [0x03000000#32] = some (s.offer .producer [0x03000000#32]) := by decide

/-! ### Witnesses: `witness_X` meets the hypotheses of `Obligations.X`, each clause at a boundary of its range -/

/-- The reset state with the consumer's command being executed. -/
def startC : State := { start with port := .consumer }

/-- An open ring on the consumer port. -/
def ringC (r : Ring) : State := { startC with ring := r }

theorem witness_DecodeReadsBackEncode :
    (Instr.bufAppend [1] 0xFFFF).wf = true ∧ (Instr.bufWrite 0xFFFFFFFFFFFFFFFF [1, 2] 0).wf = true ∧
    Instr.readOne.wf = true := by decide

theorem witness_EncodeRestoresDecodedWords :
    decode [0x12000001#32, 0x00010005#32, 0x20000000#32] = .ok (.bufAppend [5] 1, [0x20000000#32]) := by decide

theorem witness_HeaderSelectsAtMostOneRow :
    Opcode.generate.row ∈ opcodeMap ∧ Opcode.generate.row.selects 0x03000000#32 = true ∧
    Opcode.readOne.row ∈ opcodeMap ∧ Opcode.generate.row ≠ Opcode.readOne.row := by decide

/-- Opcodes 0x00, 0x05, 0x0F, 0x1B, 0x22 and 0xFF; and the lowest and highest must-be-zero bits of GENERATE. -/
theorem witness_ReservedHeadersSelectNoRow :
    ([0x00000000#32, 0x05000000#32, 0x0F000000#32, 0x1B000000#32, 0x22000000#32, 0xFF000000#32].map
        fun h => decide ((BitVec.extractLsb' 24 8 h).toNat ∉ [0x01, 0x02, 0x03, 0x04, 0x10, 0x11, 0x12, 0x13, 0x14,
          0x15, 0x16, 0x17, 0x18, 0x19, 0x1A, 0x20, 0x21])) = List.replicate 6 true ∧
    BitVec.extractLsb' 24 8 0x03800001#32 = BitVec.extractLsb' 24 8 Opcode.generate.row.matchBits ∧
    (0 < 24 ∧ Opcode.generate.row.mask.getLsbD 0 = true ∧ (0x03800001#32).getLsbD 0 = true) ∧
    (23 < 24 ∧ Opcode.generate.row.mask.getLsbD 23 = true ∧ (0x03800001#32).getLsbD 23 = true) := by decide

theorem witness_CommandLengthsAreThoseOfTheMap :
    (Instr.bufAppend [] 0).wf = true ∧ (Instr.bufWrite 0 [1, 2, 3] 9).wf = true ∧ Instr.generate.wf = true := by decide

theorem witness_PayloadPacksTwoSamplesAWord :
    2 * 0 < ([1] : List Sample).length ∧ 2 * 0 + 1 = ([1] : List Sample).length ∧
    2 * 1 + 1 < ([1, 2, 3, 4] : List Sample).length := by decide

theorem witness_ByteTransportKeepsWords : (0 < 4 ∧ 0 < 8) ∧ 3 < 4 ∧ 7 < 8 := by decide

/-- The last value in range of a field and the first out of it. -/
theorem witness_AssemblerRefusesValuesOutOfRange :
    (7 ≤ 7 ∧ 7 ≤ 7 ∧ 15 ≤ 15 ∧ 2 ^ 20 - 1 < 2 ^ 20) ∧ ¬ 8 ≤ 7 ∧ ¬ 16 ≤ 15 ∧ ¬ 2 ^ 20 < 2 ^ 20 ∧
    (∀ x ∈ ([-32768, 32767] : List Int), -32768 ≤ x ∧ x ≤ 32767) ∧
    ¬ (∀ x ∈ ([-32769] : List Int), -32768 ≤ x ∧ x ≤ 32767) := by decide

theorem witness_StepRunsTheDecodedCommand :
    ∀ p ∈ [Port.producer, Port.consumer],
      let s := start.offer p [0x03000000#32, 0x20000000#32]
      s.cfg.wf = true ∧ s.fault = none ∧ s.schedule = p :: [] ∧
      decode (s.io p).input = .ok (.generate, [0x20000000#32]) := by decide

theorem witness_StepRaisesIllegalCommand :
    ∀ p ∈ [Port.producer, Port.consumer],
      let s := start.offer p [0x05000000#32, 0x20000000#32]
      s.cfg.wf = true ∧ s.fault = none ∧ s.schedule = p :: [] ∧ (s.io p).input = 0x05000000#32 :: [0x20000000#32] ∧
      selectRow 0x05000000#32 = none := by decide

/-- Both ports, and both ends of the range of `k`: 1 and the length less 1. -/
theorem witness_StepRaisesTruncatedAfterWrongPort :
    ∀ p ∈ [Port.producer, Port.consumer], ∀ k ∈ [1, 3],
      let i := Instr.bufWrite 7 [1] 0
      let s := start.offer p ((encode i).take k)
      s.cfg.wf = true ∧ s.fault = none ∧ s.schedule = p :: [] ∧ i.wf = true ∧ 0 < k ∧ k < (encode i).length ∧
      (s.io p).input = (encode i).take k := by decide

theorem witness_IllFormedConfigurationIsRefused : (State.resetWith { tcfg with sampleRate := 59 }).cfg.wf = false := by
  decide

theorem witness_EmptyTurnsAreIdle :
    (start.cfg.wf = true ∧ start.fault = none ∧ start.schedule = []) ∧
    (let s := { start with schedule := [.consumer, .producer] }
     s.cfg.wf = true ∧ s.fault = none ∧ s.schedule = .consumer :: [.producer] ∧ (s.io .consumer).input = []) := by
  decide

/-- The reset state under TCFG has the ranges. -/
theorem start_inv : start.Inv := by
  refine ⟨by decide, fun v => ?_, ⟨rfl, by simp [start, State.resetWith]⟩, rfl⟩
  have h : start.gu.get v = GeneratorUnit.idle := PerVoice.get_fill ..
  rw [h]
  exact ⟨by decide, by decide, by decide, fun _ => rfl⟩

/-- So has a state with a ring that lists its last index. -/
theorem full_ring_inv : (withRing (ring4 [1, 2, 3, 4] 9 4)).Inv := by
  refine ⟨start_inv.1, start_inv.2.1, start_inv.2.2.1, ?_⟩
  exact ⟨by decide, by decide, by decide, by decide⟩

theorem witness_AnyPortsCommandCanBeTakenNext :
    ∃ s : State, s.Inv ∧ s.fault = none ∧ decode (s.io .consumer).input = .ok (.readOne, []) :=
  ⟨{ withRing (ring4 [1, 2, 3, 4] 9 4) with consumer := ⟨[0x20000000#32], []⟩ }, full_ring_inv, rfl, by decide⟩

theorem witness_StepNeverStops : start.Inv ∧ (withRing (ring4 [1, 2, 3, 4] 9 4)).Inv := ⟨start_inv, full_ring_inv⟩

theorem witness_FaultHaltsWithNoOtherEffect :
    (∃ t r, startC.fault = none ∧ exec .generate startC = .next t ∧ t.fault = some r) ∧
    (∃ t r, (start.offer .consumer [0x05000000#32]).fault = none ∧
      step (start.offer .consumer [0x05000000#32]) = .next t ∧ t.fault = some r) ∧
    (∃ r, ({ start with fault := some ⟨.notOpen, .producer, 0x13000000#32⟩ } : State).cfg.wf = true ∧
      ({ start with fault := some ⟨.notOpen, .producer, 0x13000000#32⟩ } : State).fault = some r) :=
  ⟨⟨_, _, rfl, rfl, rfl⟩, ⟨_, _, rfl, rfl, rfl⟩, _, by decide, rfl⟩

theorem witness_EveryCommandOnTheOtherPortRaisesWrongPort :
    startC.port ≠ Instr.generate.port ∧ start.port ≠ Instr.readOne.port := by decide

theorem witness_ReservedOperandBitsRaise :
    start.port = .producer ∧ (1 : BitVec 5) ≠ 0 ∧ (16 : BitVec 5) ≠ 0 ∧ ([7] : List Sample).length % 2 = 1 ∧
    (0x8000 : BitVec 16) ≠ 0 := by decide

theorem witness_ClosedRingRaisesNotOpen :
    (∀ i ∈ [Instr.bufFillSilent, .bufSetVolume 7, .bufSetMute true, .bufGetCurrent, .bufGetRemain, .bufGetCalled,
        .bufGetVolume, .bufGetMute, .bufWrite 0 [1] 0, .bufAppend [1, 2] 3],
      start.port = i.port ∧ start.ring.isOpen = false ∧
      i.opcode ∈ [Opcode.bufWrite, .bufAppend, .bufFillSilent, .bufSetVolume, .bufSetMute, .bufGetCurrent,
        .bufGetRemain, .bufGetCalled, .bufGetVolume, .bufGetMute, .readOne, .callbackDone]) ∧
    (∀ offset samples pad, Instr.bufWrite 0 [1] 0 = .bufWrite offset samples pad → samples.length % 2 = 0 ∨ pad = 0) ∧
    (∀ samples pad, Instr.bufAppend [1, 2] 3 = .bufAppend samples pad → samples.length % 2 = 0 ∨ pad = 0) ∧
    startC.port = Instr.readOne.port ∧ startC.ring.isOpen = false := by
  refine ⟨by decide, ?_, ?_, by decide, by decide⟩
  · rintro _ _ _ ⟨⟩
    exact .inr rfl
  · rintro _ _ ⟨⟩
    exact .inl rfl

/-- Capacity 0, capacity CAPACITY_MAX + 1, index BLOCK_LEN. -/
theorem witness_CapacityAndIndexFaults :
    start.port = .producer ∧ (0 : BitVec 32).toNat = 0 ∧ start.cfg.capacityMax.toNat < (65537 : BitVec 32).toNat ∧
    start.cfg.sampleRate / 60 ≤ (8 : BitVec 16).toNat := by decide

/-- Each counter at the first value it would pass the maximum from. -/
theorem witness_CountersRaiseInsteadOfWrapping :
    (let s := withRing (ring4 [1] 0 0xFFFFFFFFFFFFFFFE)
     s.port = .producer ∧ s.ring.isOpen = true ∧ 2 ^ 64 - 1 < s.ring.remain.toNat + ([1, 2] : List Sample).length) ∧
    (let s := ringC (ring4 [1] 0xFFFFFFFFFFFFFFFF 1)
     s.port = .consumer ∧ s.ring.isOpen = true ∧ s.ring.remain ≠ 0 ∧ s.ring.current.toNat = 2 ^ 64 - 1) ∧
    (let s := ringC { ring4 [1] 0 0 with called := 0xFFFFFFFFFFFFFFFF }
     s.port = .consumer ∧ s.ring.isOpen = true ∧ s.ring.called.toNat = 2 ^ 64 - 1) := by decide

theorem witness_ChWriteReplacesOneRegister : start.port = .producer ∧ (7 : Voice) ≠ 0 := by decide

theorem witness_VoiceMuteSetsOneFlag : start.port = .producer ∧ (0 : Voice) ≠ 7 := by decide

theorem witness_LastWriteToEachSlotRemains : start.fault = none := by decide

theorem witness_GenerateRunsEveryVoiceThroughTheBlock :
    (saw tcfg).port = .producer ∧ 0 < (saw tcfg).cfg.sampleRate / 60 ∧ 7 < (saw tcfg).cfg.sampleRate / 60 ∧
    (saw tcfg).cfg.sampleRate / 60 ≤ 8 := by decide

/-- Silent; and sounding by the register gain alone or the current gain alone. -/
theorem witness_VoiceSampleFollowsTheListing :
    ((⟨0, 0, 5⟩ : ChannelRegister).gain = 0 ∧ GeneratorUnit.idle.cur = 0) ∧
    ¬ ((⟨0, 1, 5⟩ : ChannelRegister).gain = 0 ∧ GeneratorUnit.idle.cur = 0) ∧
    ¬ ((⟨0, 0, 5⟩ : ChannelRegister).gain = 0 ∧ (⟨0, 0, 1, some 0, 5⟩ : GeneratorUnit).cur = 0) := by decide

theorem witness_GainReachesItsTargetWhenTheRampSays : tcfg.rampStep ≠ 0 := by decide

/-- Two samples with different gain, waveform and mute, at one frequency. -/
theorem witness_PhaseLawOverAnyBlocks :
    let g : GeneratorUnit := ⟨1048575, 479, 15, some 0, 3⟩
    let snapshots : List (ChannelRegister × Bool) := [(⟨0, 15, 3⟩, false), (⟨1, 2, 3⟩, true)]
    tcfg.wf = true ∧ g.phase < tcfg.phaseMod ∧ g.drift < tcfg.sampleRate ∧ (∀ rm ∈ snapshots, rm.1.freq = 3) ∧
    SoundsThroughout tcfg snapshots g :=
  ⟨by decide, by decide, by decide, by decide, by decide, by decide, trivial⟩

/-- One sample before the wrap and at it, a frequency of 0, a voice with register gain 0 that is still fading up to its
last non-silent sample, and a start from silence. -/
theorem witness_WaveformSwitchWaitsForTheWrap :
    let r : ChannelRegister := ⟨1, 15, 0x10000⟩
    let g : GeneratorUnit := ⟨0, 0, 15, some 0, 0x10000⟩
    let left := tcfg.phaseMod * tcfg.sampleRate - (g.phase * tcfg.sampleRate + g.drift)
    let fading : ChannelRegister := ⟨1, 0, 0x10000⟩
    let late : GeneratorUnit := ⟨950272, 0, 15, some 0, 0x10000⟩
    let lateLeft := tcfg.phaseMod * tcfg.sampleRate - (late.phase * tcfg.sampleRate + late.drift)
    tcfg.wf = true ∧ g.InRange tcfg ∧ g.lwave = some 0 ∧
    (∀ k, k < 32 → ¬ (r.gain = 0 ∧ (voiceAfter tcfg r false k g).cur = 0)) ∧
    31 * (r.freq.toNat * tcfg.refRate) < left ∧ left ≤ 32 * (r.freq.toNat * tcfg.refRate) ∧
    tcfg.phaseMod * tcfg.sampleRate ≤ 32 * (r.freq.toNat * tcfg.refRate) ∧ (⟨1, 15, 0⟩ : ChannelRegister).freq = 0 ∧
    late.InRange tcfg ∧ late.lwave = some 0 ∧
    (∀ k, k < 4 → ¬ (fading.gain = 0 ∧ (voiceAfter tcfg fading false k late).cur = 0)) ∧
    2 * (fading.freq.toNat * tcfg.refRate) < lateLeft ∧ lateLeft ≤ 3 * (fading.freq.toNat * tcfg.refRate) ∧
    GeneratorUnit.idle.InRange tcfg ∧ GeneratorUnit.idle.lwave = none ∧ ¬ (r.gain = 0 ∧ GeneratorUnit.idle.cur = 0) :=
  ⟨by decide, ⟨by decide, by decide, by decide, by decide⟩, by decide, fun _ _ h => absurd h.1 (by decide), by decide,
    by decide, by decide, by decide, ⟨by decide, by decide, by decide, by decide⟩, by decide, by decide +kernel,
    by decide, by decide, ⟨by decide, by decide, by decide, by decide⟩, by decide, by decide⟩

theorem witness_LinearLookupStaysBetweenItsSamples :
    tcfg.wf = true ∧ (0 < tcfg.phaseMod ∧ 0 < tcfg.sampleRate) ∧ 1048575 < tcfg.phaseMod ∧ 479 < tcfg.sampleRate := by
  decide

theorem witness_SaturationActsOnlyWithADcCentre :
    tcfg.wf = true ∧ (⟨1048575, 479, 15, some 7, 0xFFFFF⟩ : GeneratorUnit).InRange tcfg ∧
    1048575 < tcfg.phaseMod ∧ 479 < tcfg.sampleRate ∧ tcfg.dcCenter = 0 ∧
    (∀ _ : Voice, (-32768 : Int) ≤ -32768 ∧ (-32768 : Int) ≤ 32767) ∧
    (∀ _ : Voice, (-32768 : Int) ≤ 32767 ∧ (32767 : Int) ≤ 32767) :=
  ⟨by decide, ⟨by decide, by decide, by decide, by decide⟩, by decide, by decide, by decide, by decide, by decide⟩

/-- One voice alone, and eight equal voices. -/
theorem witness_MixAveragesEightVoicesAndSaturates :
    (∀ w : Voice, w ≠ 7 → (if w = 7 then (9 : Int) else 0) = 0) ∧ ∀ _ : Voice, (32768 : Int) = 32768 := by decide

/-- Two states that agree on voice 0 and differ on voice 1. -/
theorem witness_LanesDoNotInterfere :
    let s := saw tcfg
    let s' := s.setRegister 1 ⟨1, 15, 5⟩
    s.cfg = s'.cfg ∧ s.port = .producer ∧ s'.port = .producer ∧ s.rb.get 0 = s'.rb.get 0 ∧
    s.vmute.get 0 = s'.vmute.get 0 ∧ s.gu.get 0 = s'.gu.get 0 ∧ s.rb.get 1 ≠ s'.rb.get 1 ∧
    (∃ t, exec .generate s = .next t) ∧ ∃ t', exec .generate s' = .next t' :=
  ⟨rfl, rfl, rfl, rfl, rfl, rfl, by decide, ⟨_, rfl⟩, _, rfl⟩

theorem witness_SilentVoicesMixToTheDcCentre :
    let s := start.setVoiceMute 3 true
    s.port = .producer ∧ (∀ v, (s.rb.get v).gain = 0 ∧ (s.gu.get v).cur = 0) ∧ 7 < s.cfg.sampleRate / 60 ∧
    1 ≤ s.cfg.sampleRate / 60 := by decide

theorem witness_GenerateNeitherReadsNorWritesTheRing : ∃ t, exec .generate (saw tcfg) = .next t := ⟨_, rfl⟩

/-- The last index, BLOCK_LEN - 1. -/
theorem witness_MixReadRespondsWithTheSample :
    start.port = .producer ∧ (7 : BitVec 16).toNat < start.cfg.sampleRate / 60 := by decide

/-- Capacities 1 and CAPACITY_MAX. -/
theorem witness_BufOpenReplacesTheRing :
    start.port = .producer ∧ (1 ≤ (1 : BitVec 32).toNat ∧ (1 : BitVec 32).toNat ≤ start.cfg.capacityMax.toNat) ∧
    (1 ≤ (65536 : BitVec 32).toNat ∧ (65536 : BitVec 32).toNat ≤ start.cfg.capacityMax.toNat) := by decide

theorem witness_FillSilentZeroesTheRing :
    (withRing (ring4 [5, 6, 7, 8] 9 1)).port = .producer ∧ (withRing (ring4 [5, 6, 7, 8] 9 1)).ring.isOpen = true := by
  decide

theorem witness_VolumeAndMuteAreSet :
    (withRing (ring4 [] 0 0)).port = .producer ∧ (withRing (ring4 [] 0 0)).ring.isOpen = true := by decide

theorem witness_AccessorsRespondAndChangeNothing :
    (withRing (ring4 [] 0xFFFFFFFFFFFFFFFF 3)).port = .producer ∧
    (withRing (ring4 [] 0xFFFFFFFFFFFFFFFF 3)).ring.isOpen = true := by decide

/-- `remain` reaching `2^64 - 1` exactly, and a write longer than the ring; every sample of the first lasts, sample 0
of the second does not. -/
theorem witness_BufWriteStoresFromTheOffset :
    let s := withRing (ring4 [1, 2, 3, 4] 0 0xFFFFFFFFFFFFFFFD)
    s.port = .producer ∧ s.ring.isOpen = true ∧ s.ring.cap ≠ 0 ∧ s.ring.data.wf = true ∧
    (([5, 6] : List Sample).length % 2 = 0 ∨ (9 : BitVec 16) = 0) ∧
    s.ring.remain.toNat + ([5, 6] : List Sample).length ≤ 2 ^ 64 - 1 ∧
    (∀ l, 0 < l → l < 2 → (0xFFFFFFFFFFFFFFFF + l) % 4 ≠ (0xFFFFFFFFFFFFFFFF + 0) % 4) ∧
    (∀ j, j < 2 → (0xFFFFFFFFFFFFFFFF + j) % 4 ≠ 1) := by
  refine ⟨by decide, by decide, by decide, by decide, by decide, by decide, ?_, ?_⟩
  · intro l h1 h2
    omega
  · intro j h
    omega

theorem witness_BufAppendStoresFromTheTail :
    let s := withRing (ring4 [1, 2, 3, 4] 0xFFFFFFFFFFFFFFFF 4)
    s.port = .producer ∧ s.ring.isOpen = true ∧ s.ring.cap ≠ 0 ∧ s.ring.data.wf = true ∧
    (([5] : List Sample).length % 2 = 0 ∨ (0 : BitVec 16) = 0) ∧
    s.ring.remain.toNat + ([5] : List Sample).length ≤ 2 ^ 64 - 1 := by decide

/-- The first position out of reach, `current + cap`: sample 4 of six written at 0, the last on its index, and the first
sample appended to a full ring. -/
theorem witness_OverrunReplacesTheSampleACapacityBack :
    let s := withRing (ring4 [1, 2, 3, 4] 0 4)
    s.port = .producer ∧ s.ring.isOpen = true ∧ s.ring.cap ≠ 0 ∧ s.ring.data.wf = true ∧
    (([1, 2, 3, 4, 5, 6] : List Sample).length % 2 = 0 ∨ (9 : BitVec 16) = 0) ∧
    s.ring.remain.toNat + ([1, 2, 3, 4, 5, 6] : List Sample).length ≤ 2 ^ 64 - 1 ∧
    s.ring.current.toNat + s.ring.cap.toNat ≤ (0 : BitVec 64).toNat + 4 ∧
    (∀ l, 4 < l → l < 6 → (0 + l) % 4 ≠ (0 + 4) % 4) ∧
    s.ring.current.toNat + s.ring.cap.toNat ≤ s.ring.current.toNat + s.ring.remain.toNat + 0 := by
  refine ⟨by decide, by decide, by decide, by decide, by decide, by decide, by decide, ?_, by decide⟩
  intro l h1 h2
  omega

/-- As many samples as the ring holds, and none. -/
theorem witness_AppendAfterFillSilentPlaysTwice :
    let s := withRing (ring4 [1, 2, 3, 4] 9 1)
    s.fault = none ∧ s.ring.isOpen = true ∧ s.ring.cap ≠ 0 ∧ ([5, 6, 7, 8] : List Sample).length ≤ s.ring.cap.toNat ∧
    ([] : List Sample).length ≤ s.ring.cap.toNat := by decide

theorem witness_ReadOneTakesTheSampleAtCurrent :
    let s := ringC (ring4 [1, 2, 3, 4] 0xFFFFFFFFFFFFFFFE 1)
    s.port = .consumer ∧ s.ring.isOpen = true ∧ s.ring.cap ≠ 0 ∧ s.ring.remain ≠ 0 ∧
    s.ring.current.toNat < 2 ^ 64 - 1 := by decide

theorem witness_UnderrunReturnsSilence :
    let s := ringC (ring4 [1, 2, 3, 4] 0xFFFFFFFFFFFFFFFF 0)
    s.port = .consumer ∧ s.ring.isOpen = true ∧ s.ring.remain = 0 := by decide

theorem witness_CallbackDoneCountsOneCallback :
    let s := ringC { ring4 [] 0 0 with called := 0xFFFFFFFFFFFFFFFE }
    s.port = .consumer ∧ s.ring.isOpen = true ∧ s.ring.called.toNat < 2 ^ 64 - 1 := by decide

theorem witness_FillSilentThenReadsReturnSilence :
    let s := withRing (ring4 [1, 2, 3, 4] 9 1)
    s.fault = none ∧ s.ring.isOpen = true ∧ s.ring.cap ≠ 0 := by decide

/-- The last `current` from which a callback of CB_LEN = 4 reads cannot overflow. -/
theorem witness_CallbackReadsItsBlockAndCountsOnce :
    let s := withRing { ring4 [1, 2, 3, 4] 0xFFFFFFFFFFFFFFFB 2 with called := 0xFFFFFFFFFFFFFFFE }
    s.fault = none ∧ s.ring.isOpen = true ∧ s.ring.cap ≠ 0 ∧ s.ring.current.toNat + s.cfg.cbLen ≤ 2 ^ 64 - 1 ∧
    s.ring.called.toNat < 2 ^ 64 - 1 := by decide

/-- A ring filled to its capacity, read past empty, and filled again. -/
theorem witness_PacedRingIsAQueue :
    let s := withRing (ring4 [1, 2, 3, 4] 3 1)
    let ops := [some [5, 6, 7], none, none, none, none, none, some [8]]
    s.fault = none ∧ s.ring.isOpen = true ∧ s.ring.cap ≠ 0 ∧ s.ring.data.wf = true ∧ s.ring.paced ∧
    s.ring.current.toNat + ops.length ≤ 2 ^ 64 - 1 ∧
    queueRun s.ring.cap.toNat ops s.ring.unread = some ([4, 5, 6, 7, 0], [8]) :=
  ⟨by decide, by decide, by decide, by decide, (by decide : (1 : Counter).toNat ≤ (4 : BitVec 32).toNat), by decide,
    by decide⟩

theorem witness_SynthCommandsLeaveTheRing :
    Instr.generate.opcode ∈ [Opcode.chWrite, .voiceMute, .generate, .mixRead] ∧
    (Instr.mixRead 0).opcode ∈ [Opcode.chWrite, .voiceMute, .generate, .mixRead] ∧
    (∃ t, exec .generate (saw tcfg) = .next t) ∧ ∃ t, exec (.mixRead 0) start = .next t :=
  ⟨by decide, by decide, ⟨_, rfl⟩, _, rfl⟩

theorem witness_RingCommandsLeaveTheSynthesizer :
    Instr.readOne.opcode ∉ [Opcode.chWrite, .voiceMute, .generate, .mixRead] ∧
    ∃ t, exec .readOne (ringC (ring4 [1] 0 1)) = .next t := ⟨by decide, _, rfl⟩

theorem witness_CommandsRespondOnTheirPortOnly : ∃ t, exec .readOne (ringC (ring4 [1] 0 1)) = .next t := ⟨_, rfl⟩

theorem witness_SynthAndConsumerCommandsCommute :
    (Instr.mixRead 0).opcode ∈ [Opcode.chWrite, .voiceMute, .generate, .mixRead] ∧ Instr.readOne.port = .consumer ∧
    (withRing (ring4 [1] 0 1)).fault = none ∧
    (runCommands [.mixRead 0, .readOne] (withRing (ring4 [1] 0 1))).isSome = true := by decide

theorem witness_ResetLeavesTheTableOfValues :
    (start = State.reset ∨ ∃ c, start = State.resetWith c) ∧ start.fault = none ∧
    ∃ t, exec (.bufOpen 4) start = .next t ∧ t.fault = none := ⟨.inr ⟨tcfg, rfl⟩, rfl, _, rfl, rfl⟩

theorem witness_EveryStepKeepsTheStateRanges :
    (start.offer .producer [0x03000000#32]).Inv ∧ ∃ t, step (start.offer .producer [0x03000000#32]) = .next t :=
  ⟨⟨start_inv.1, start_inv.2.1, start_inv.2.2.1, start_inv.2.2.2⟩, _, rfl⟩

end Sys2Proof.Tests
end

section
/-! PROOFS. The configuration: its constraints (R7) and the refusal of one that breaks them. -/

namespace Sys2Proof.Machine

theorem capacityMax_le (c : Config) : c.capacityMax.toNat ≤ 2 ^ 32 - 1 :=
  Nat.le_sub_one_of_lt c.capacityMax.isLt

theorem step_of_cfg_ill_formed {s : State} (h : s.cfg.wf = false) : step s = .refused .illFormedConfig := by
  simp [step, h]

/-- Settles O13: `Config.wf` checks the bounds that the field types leave open (`Config.wf_iff`), the types give the
others (`sample_range`, `capacityMax_le`), and a step tests `Config.wf` before anything else. -/
theorem illFormedConfigurationIsRefused : Obligations.IllFormedConfigurationIsRefused := by
  refine ⟨fun c => ?_, fun _ => step_of_cfg_ill_formed⟩
  simp only [Config.wf_iff, ← Nat.one_le_iff_ne_zero]
  constructor
  · rintro ⟨hrate, href, hgain, hramp, hcap, hcb⟩
    exact ⟨hrate, href, Nat.zero_le _, hgain, hramp, sample_range _, fun _ _ => sample_range _,
      ⟨hcap, capacityMax_le c⟩, hcb⟩
  · rintro ⟨hrate, href, -, hgain, hramp, -, -, ⟨hcap, -⟩, hcb⟩
    exact ⟨hrate, href, hgain, hramp, hcap, hcb⟩

end Sys2Proof.Machine
end

section
/-! PROOFS. The state (10_state.md): the values after reset, and the RING fields BUF_OPEN re-initialises (R36); the
bound on the current gain's change per sample (R28). -/

namespace Sys2Proof.Machine

theorem isSilent_iff (r : ChannelRegister) (g : GeneratorUnit) : isSilent r g = true ↔ r.gain = 0#4 ∧ g.cur = 0 := by
  simp [isSilent]

/-- BUF_OPEN differs from reset in `open`, `cap` and `data` only (R36, R160). -/
theorem Ring.opened_eq_reset (c : Config) (cap : BitVec 32) :
    Ring.opened cap = { (State.resetWith c).ring with isOpen := true, cap := cap, data := [] } := rfl

/-- A BUF_OPEN that raises no fault has opened the ring (R160). -/
theorem ring_of_bufOpen_next {s t : State} {cap : BitVec 32} (h : exec (.bufOpen cap) s = .next t)
    (ht : t.fault = none) : t.ring = Ring.opened cap := by
  rcases exec_next h with ⟨code, rfl⟩ | ⟨-, -, rfl⟩
  · simp at ht
  · exact State.setRing_ring s _

/-- Settles O28: a silent voice keeps its current gain, which is 0, and a sounding one ramps it
(`rampGain_between`). -/
theorem currentGainMovesAtMostOneRampStep : Obligations.CurrentGainMovesAtMostOneRampStep := by
  intro c r m g
  cases h : isSilent r g with
  | true =>
    obtain ⟨-, hcur⟩ := (isSilent_iff r g).1 h
    simp [voiceSample_silent m h, GeneratorUnit.idle, hcur]
  | false =>
    rw [voiceSample_sounding m h]
    exact (rampGain_between c g.cur (specGain c r m)).2

/-- Settles O57: the reset state is the table of R36 whatever the configuration, and a BUF_OPEN without a fault leaves
the opened ring (`ring_of_bufOpen_next`), which is the one of reset but for three fields. -/
theorem resetLeavesTheTableOfValues : Obligations.ResetLeavesTheTableOfValues := by
  constructor
  · intro s hs
    obtain ⟨c, rfl⟩ : ∃ c, s = State.resetWith c := hs.elim (⟨Config.default, ·⟩) id
    exact ⟨PerVoice.get_fill _, PerVoice.get_fill _, PerVoice.get_fill _, fun _ => rfl, rfl, rfl, rfl, rfl, rfl, rfl,
      rfl, rfl, rfl⟩
  · intro s t cap _ h ht
    exact ⟨[], (ring_of_bufOpen_next h ht).trans (Ring.opened_eq_reset s.cfg cap), fun _ => rfl⟩

end Sys2Proof.Machine
end

section
/-! PROOFS. The opcode map (30_encoding.md, R90): a row is known by its op field, bits 31 to 24 (R94). -/

namespace Sys2Proof

/-- The op field, bits 31 to 24 of a header word (R81). -/
def opField (h : Word) : BitVec 8 := h.extractLsb' 24 8

theorem opField_and (h m : Word) : opField (h &&& m) = opField h &&& opField m := BitVec.extractLsb'_and

theorem OpRow.selects_iff (r : OpRow) (h : Word) : r.selects h = true ↔ h &&& r.mask = r.matchBits := beq_iff_eq

/-- Every mask of R90 compares the whole op field. -/
theorem opField_mask : ∀ r ∈ opcodeMap, opField r.mask = BitVec.allOnes 8 := by decide

/-- A header has the op field of any row it selects. -/
theorem opField_of_selects {h : Word} {r : OpRow} (hr : r ∈ opcodeMap) (hs : r.selects h = true) :
    opField h = opField r.matchBits := by
  rw [← (r.selects_iff h).1 hs, opField_and, opField_mask r hr, BitVec.and_allOnes]

theorem opcodeMap_opFields_nodup : (opcodeMap.map fun r => opField r.matchBits).Nodup := by decide

theorem row_eq_of_opField_eq {r q : OpRow} (hr : r ∈ opcodeMap) (hq : q ∈ opcodeMap)
    (h : opField r.matchBits = opField q.matchBits) : r = q :=
  List.inj_on_of_nodup_map opcodeMap_opFields_nodup hr hq h

/-- No two rows have a header in common (R94). -/
theorem row_eq_of_selects {h : Word} {r q : OpRow} (hr : r ∈ opcodeMap) (hq : q ∈ opcodeMap)
    (hrs : r.selects h = true) (hqs : q.selects h = true) : r = q :=
  row_eq_of_opField_eq hr hq ((opField_of_selects hr hrs).symm.trans (opField_of_selects hq hqs))

theorem selectRow_eq_none_iff (h : Word) : selectRow h = none ↔ ∀ r ∈ opcodeMap, r.selects h = false := by
  simp only [selectRow, List.find?_eq_none, Bool.not_eq_true]

/-- The row that `selectRow` finds first is the only one the header selects. -/
theorem selectRow_eq_some_iff (h : Word) (r : OpRow) :
    selectRow h = some r ↔ r ∈ opcodeMap ∧ r.selects h = true := by
  constructor
  · intro hs
    obtain ⟨hr, hbits⟩ := selectRow_some hs
    exact ⟨hr, (r.selects_iff h).2 hbits⟩
  · rintro ⟨hr, hrs⟩
    cases hs : selectRow h with
    | none => exact absurd hrs (Bool.eq_false_iff.1 ((selectRow_eq_none_iff h).1 hs r hr))
    | some q =>
      obtain ⟨hq, hbits⟩ := selectRow_some hs
      rw [row_eq_of_selects hq hr ((q.selects_iff h).2 hbits) hrs]

/-- Settles O4: the op fields of the rows differ (`opcodeMap_opFields_nodup`) and every mask compares the whole op field
(`opField_of_selects`), so a header selects at most one row, and `selectRow` finds it. -/
theorem headerSelectsAtMostOneRow : Obligations.HeaderSelectsAtMostOneRow :=
  ⟨fun _ _ hr _ hq => row_eq_of_selects hr hq,
    fun _ hr _ hq hne hop => hne (row_eq_of_opField_eq hr hq hop),
    selectRow_eq_some_iff, selectRow_eq_none_iff⟩

end Sys2Proof
end

section
/-! PROOFS. The mix (R140): an average of eight, saturated; and the ranges that leave the saturation idle where
DC_CENTER is 0 (R141). -/

namespace Sys2Proof.Machine

/-- A sample holds what `sat16` leaves. -/
theorem sampleOf_sat16_toInt (x : Int) : (sampleOf (sat16 x)).toInt = sat16 x :=
  sampleOf_toInt (sat16_range x).1 (sat16_range x).2

/-- The mix as an integer, with R140's sum over all voices. -/
theorem mixOf_toInt (c : Config) (o : Voice → Int) :
    (mixOf c o).toInt = sat16 (tdiv (∑ v, o v) 8 + c.dcCenter.toInt) := by
  rw [Fin.sum_univ_eight]
  exact sampleOf_sat16_toInt _

/-- Settles O60: the three clauses are `mixOf_toInt` with the sum written out, with one summand left, and with eight
equal summands. -/
theorem mixAveragesEightVoicesAndSaturates : Obligations.MixAveragesEightVoicesAndSaturates := by
  refine ⟨fun c o => ?_, fun c o v hzero => ?_, fun c o x hall => ?_⟩
  · rw [← Fin.sum_univ_eight o]
    exact mixOf_toInt c o
  · have hsum : ∑ w, o w = o v := Fintype.sum_eq_single v hzero
    rw [mixOf_toInt, hsum]
    rfl
  · have hsum : ∑ v, o v = 8 * x := by simp [hall]
    have havg : tdiv (8 * x) 8 = x := Int.mul_tdiv_cancel_left x (by decide)
    rw [mixOf_toInt, hsum, havg]
    rfl

/-- A truncated quotient lies between two integers where the dividend lies between their multiples. -/
theorem tdiv_range {a d lo hi : Int} (hd : 0 < d) (hlo : lo * d ≤ a) (hhi : a ≤ hi * d) :
    lo ≤ tdiv a d ∧ tdiv a d ≤ hi :=
  ⟨Int.le_tdiv_of_mul_le hd hlo, (Int.tdiv_le_tdiv hd hhi).trans_eq (Int.mul_tdiv_cancel hi hd.ne')⟩

/-- A fraction `n / d <= 1` of `a`, truncated, lies between 0 and `a`: the interpolation (R138) and the gain multiply
(R139). -/
theorem tdiv_fraction_between (a : Int) {n d : Nat} (hd : 0 < d) (hn : n ≤ d) :
    min a 0 ≤ tdiv (a * n) d ∧ tdiv (a * n) d ≤ max a 0 := by
  have hn0 : (0 : Int) ≤ n := Int.natCast_nonneg n
  have hnd : (n : Int) ≤ d := by exact_mod_cast hn
  refine tdiv_range (by exact_mod_cast hd) ?_ ?_
  · calc min a 0 * d ≤ min a 0 * n := mul_le_mul_of_nonpos_left hnd (min_le_right a 0)
      _ ≤ a * n := mul_le_mul_of_nonneg_right (min_le_left a 0) hn0
  · calc a * n ≤ max a 0 * n := mul_le_mul_of_nonneg_right (le_max_left a 0) hn0
      _ ≤ max a 0 * d := mul_le_mul_of_nonneg_left hnd (le_max_right a 0)

theorem romSample_range (c : Config) (w : BitVec 3) (i : Nat) : -32768 ≤ romSample c w i ∧ romSample c w i ≤ 32767 :=
  sample_range _

/-- The numerator of the fractional position is below its denominator `D` (R138). -/
theorem fraction_lt_fracDenom (c : Config) (phase : Nat) {drift : Nat} (h : drift < c.sampleRate) :
    phase % c.phaseUnit * c.sampleRate + drift < c.fracDenom :=
  calc phase % c.phaseUnit * c.sampleRate + drift
      < (phase % c.phaseUnit + 1) * c.sampleRate := by rw [Nat.succ_mul]; omega
    _ ≤ c.phaseUnit * c.sampleRate := Nat.mul_le_mul_right _ (Nat.mod_lt _ (phaseUnit_pos c))

/-- The interpolated sample lies between the two it is interpolated from (R138). -/
theorem lookupLinear_between (c : Config) (w : BitVec 3) (phase : Nat) {drift : Nat} (h : drift < c.sampleRate) :
    let x := romSample c w (phase / c.phaseUnit)
    let y := romSample c w ((phase / c.phaseUnit + 1) % waveLen)
    min x y ≤ lookupLinear c w phase drift ∧ lookupLinear c w phase drift ≤ max x y := by
  intro x y
  have hfu := fraction_lt_fracDenom c phase h
  have hstep := tdiv_fraction_between (y - x) (Nat.zero_lt_of_lt hfu) hfu.le
  have hval : lookupLinear c w phase drift =
      x + tdiv ((y - x) * (phase % c.phaseUnit * c.sampleRate + drift : Nat)) c.fracDenom := rfl
  rw [hval]
  omega

/-- Every looked-up sample is a 16-bit value, in either mode (R137, R138). -/
theorem lookup_range (c : Config) (w : BitVec 3) (phase : Nat) {drift : Nat} (h : drift < c.sampleRate) :
    -32768 ≤ lookup c w phase drift ∧ lookup c w phase drift ≤ 32767 := by
  unfold lookup
  split
  · exact romSample_range c w _
  · have hbetween := lookupLinear_between c w phase h
    have hx := romSample_range c w (phase / c.phaseUnit)
    have hy := romSample_range c w ((phase / c.phaseUnit + 1) % waveLen)
    omega

theorem sampleRate_pos {c : Config} (h : c.wf = true) : 0 < c.sampleRate := by
  obtain ⟨hrate, -⟩ := (Config.wf_iff c).1 h
  omega

theorem gainFull_pos {c : Config} (h : c.wf = true) : 0 < c.gainFull := by
  obtain ⟨-, -, hscale, -⟩ := (Config.wf_iff c).1 h
  exact Nat.mul_pos (by decide) (Nat.pos_of_ne_zero hscale)

/-- The gain multiply by a gain of at most G_FULL keeps a 16-bit value one (R139). -/
theorem scaleByGain_range {c : Config} {x : Int} {cur : Nat} (hc : c.wf = true) (hcur : cur ≤ c.gainFull)
    (hx : -32768 ≤ x ∧ x ≤ 32767) : -32768 ≤ scaleByGain c x cur ∧ scaleByGain c x cur ≤ 32767 := by
  have h : min x 0 ≤ scaleByGain c x cur ∧ scaleByGain c x cur ≤ max x 0 :=
    tdiv_fraction_between x (gainFull_pos hc) hcur
  omega

/-- Every voice output is a 16-bit value (R141): a silent one is 0, a sounding one a looked-up sample scaled by
`cur' <= G_FULL`. -/
theorem voiceSample_out_range {c : Config} (r : ChannelRegister) (m : Bool) {g : GeneratorUnit} (hc : c.wf = true)
    (hcur : g.cur ≤ c.gainFull) : -32768 ≤ (voiceSample c r m g).1 ∧ (voiceSample c r m g).1 ≤ 32767 := by
  cases h : isSilent r g with
  | true => simp [voiceSample_silent m h]
  | false =>
    rw [voiceSample_sounding m h]
    exact scaleByGain_range hc (rampGain_le c hcur (specGain_le c r m))
      (lookup_range c _ _ (nextDrift_lt c r g (sampleRate_pos hc)))

/-- Saturation leaves a 16-bit average alone where there is no DC centre (R141). -/
theorem mixOf_toInt_of_no_dcCenter {c : Config} {o : Voice → Int} (hdc : c.dcCenter = 0)
    (havg : -32768 ≤ tdiv (∑ v, o v) 8 ∧ tdiv (∑ v, o v) 8 ≤ 32767) : (mixOf c o).toInt = tdiv (∑ v, o v) 8 := by
  have hzero : c.dcCenter.toInt = 0 := by rw [hdc]; rfl
  rw [mixOf_toInt, hzero, Int.add_zero]
  exact sat16_of_range havg.1 havg.2

/-- Settles O33: `lookup_range` and `voiceSample_out_range` give the ranges, which the average of eight keeps
(`tdiv_range`); eight voices at either end and a DC centre of the same sign saturate. -/
theorem saturationActsOnlyWithADcCentre : Obligations.SaturationActsOnlyWithADcCentre := by
  refine ⟨fun c r m g hc hg => ?_, fun c o hdc ho => ?_, ?_, ?_⟩
  · obtain ⟨-, -, hcur, -⟩ := hg
    exact ⟨fun w phase drift _ hdrift => lookup_range c w phase hdrift, voiceSample_out_range r m hc hcur⟩
  · intro sum
    have hsum : -262144 ≤ sum ∧ sum ≤ 262136 := by
      have := ho 0; have := ho 1; have := ho 2; have := ho 3
      have := ho 4; have := ho 5; have := ho 6; have := ho 7
      omega
    have havg : -32768 ≤ Int.tdiv sum 8 ∧ Int.tdiv sum 8 ≤ 32767 :=
      tdiv_range (by decide) hsum.1 (by omega)
    have heq : ∑ v, o v = sum := Fin.sum_univ_eight o
    refine ⟨hsum, havg, ?_⟩
    rw [← heq] at havg ⊢
    exact mixOf_toInt_of_no_dcCenter hdc havg
  · exact ⟨{ Config.default with dcCenter := 1#16 }, fun _ => 32767, by decide, by decide, by decide, by decide⟩
  · exact ⟨{ Config.default with dcCenter := 0xFFFF#16 }, fun _ => -32768, by decide, by decide, by decide, by decide⟩

end Sys2Proof.Machine
end

section
/-! PROOFS. The phase law (R143). -/

namespace Sys2Proof.Machine

/-- What a later advance by `y` finds in the drift of R135 is the remainder of the advance before it. -/
theorem nextDrift_add_mod (c : Config) (r : ChannelRegister) (g : GeneratorUnit) (y : Nat) :
    (nextDrift c r g + y) % c.sampleRate = (advanceTotal c r g + y) % c.sampleRate :=
  Nat.mod_add_mod _ _ _

/-- No fraction of an advance is lost between two samples: the drift carries it over (R135). -/
theorem nextPhase_add_nextDrift_div {c : Config} (hc : c.wf = true) (r : ChannelRegister) (g : GeneratorUnit)
    (y : Nat) :
    (nextPhase c r g + (nextDrift c r g + y) / c.sampleRate) % c.phaseMod =
      (g.phase + (advanceTotal c r g + y) / c.sampleRate) % c.phaseMod := by
  have hcarry : advanceTotal c r g / c.sampleRate + (nextDrift c r g + y) / c.sampleRate =
      (advanceTotal c r g + y) / c.sampleRate := by
    rw [nextDrift, ← Nat.mul_add_div (sampleRate_pos hc), ← Nat.add_assoc, Nat.div_add_mod]
  rw [nextPhase, Nat.mod_add_mod, rawPhase, Nat.add_assoc, hcarry]

/-- Settles O30, by induction on the samples: a sounding sample advances phase and drift by `f * REF_RATE`, whatever
else its snapshot holds, and the remainder it leaves in the drift is carried into the later ones
(`nextPhase_add_nextDrift_div`). -/
theorem phaseLawOverAnyBlocks : Obligations.PhaseLawOverAnyBlocks := by
  intro c f snapshots g hc hphase hdrift hfreq hsounds
  induction snapshots generalizing g with
  | nil => simp [voiceRun, Nat.div_eq_of_lt hdrift, Nat.mod_eq_of_lt hphase, Nat.mod_eq_of_lt hdrift]
  | cons rm rms ih =>
    obtain ⟨hsound, hrest⟩ := hsounds
    obtain ⟨hf, hfreq⟩ := List.forall_mem_cons.1 hfreq
    have hunit : (voiceSample c rm.1 rm.2 g).2 = soundingUnit c rm.1 rm.2 g := by
      rw [voiceSample_sounding rm.2 hsound]
    rw [hunit] at hrest
    obtain ⟨ihphase, ihdrift⟩ := ih (soundingUnit c rm.1 rm.2 g) (nextPhase_lt c rm.1 g)
      (nextDrift_lt c rm.1 g (sampleRate_pos hc)) hfreq hrest
    have htotal : advanceTotal c rm.1 g + rms.length * f.toNat * c.refRate =
        g.drift + (rm :: rms).length * f.toNat * c.refRate := by
      rw [advanceTotal, hf, List.length_cons]
      ring
    simp only [voiceRun, hunit, ← htotal]
    exact ⟨ihphase.trans (nextPhase_add_nextDrift_div hc rm.1 g _), ihdrift.trans (nextDrift_add_mod c rm.1 g _)⟩

end Sys2Proof.Machine
end

section
/-! PROOFS. A run of ring commands (R162, R182, R190) and the samples it plays (R183). -/

namespace Sys2Proof.Machine

/-! ### The commands where they raise no fault -/

theorem exec_bufFillSilent_of_open {s : State} (hp : s.port = .producer) (ho : s.ring.isOpen = true) :
    exec .bufFillSilent s = .next (s.setRing s.ring.silenced) := by
  show execBufFillSilent s = _
  rw [execBufFillSilent, onItsPort_of_eq hp, whenOpen_of_open ho]

theorem exec_bufAppend_of_fits {s : State} {samples : List Sample} {pad : BitVec 16} (hp : s.port = .producer)
    (hpad : payloadReserved samples pad = false) (ho : s.ring.isOpen = true) (hc : s.ring.cap ≠ 0#32)
    (hn : s.ring.remain.toNat + samples.length ≤ counterMax) :
    exec (.bufAppend samples pad) s = .next (s.setRing (s.ring.stored (s.ring.tail % s.ring.cap.toNat) samples)) := by
  show execBufAppend samples pad s = _
  rw [execBufAppend, onItsPort_of_eq hp, hpad, whenUnreserved_false, whenOpen_of_open ho, storeAt_of_fits hn hc]

theorem exec_readOne_of_unread {s : State} (hp : s.port = .consumer) (ho : s.ring.isOpen = true)
    (hc : s.ring.cap ≠ 0#32) (hr : s.ring.remain ≠ 0#64) (hcur : s.ring.current.toNat + 1 ≤ counterMax) :
    exec .readOne s = .next ((s.setRing s.ring.advanced).respond
      [sext32 (s.ring.attenuate (s.ring.at s.ring.current.toNat))]) := by
  have hover : counterOverflows s.ring.current 1 = false := by simpa [counterOverflows] using hcur
  show execReadOne s = _
  rw [execReadOne, onItsPort_of_eq hp, whenOpen_of_open ho, if_neg hr, hover, Ring.index_of_pos hc]
  rfl

/-- A command that raises no fault hands its state to the commands after it. -/
theorem runCommands_cons {i : Instr} {is : List Instr} {s t : State} (h : exec i { s with port := i.port } = .next t)
    (hf : t.fault = none) : runCommands (i :: is) s = runCommands is t := by
  simp [runCommands, h, State.halted, hf]

theorem runCommands_bufFillSilent (is : List Instr) {s : State} (hf : s.fault = none) (ho : s.ring.isOpen = true) :
    runCommands (.bufFillSilent :: is) s =
      runCommands is (({ s with port := .producer } : State).setRing s.ring.silenced) :=
  runCommands_cons (exec_bufFillSilent_of_open rfl ho) hf

theorem runCommands_bufAppend (is : List Instr) {s : State} {samples : List Sample} {pad : BitVec 16}
    (hf : s.fault = none) (hpad : payloadReserved samples pad = false) (ho : s.ring.isOpen = true)
    (hc : s.ring.cap ≠ 0#32) (hn : s.ring.remain.toNat + samples.length ≤ counterMax) :
    runCommands (.bufAppend samples pad :: is) s = runCommands is
      (({ s with port := .producer } : State).setRing (s.ring.stored (s.ring.tail % s.ring.cap.toNat) samples)) :=
  runCommands_cons (exec_bufAppend_of_fits rfl hpad ho hc hn) hf

/-! ### Reading the ring empty (R190) -/

theorem Ring.advanced_current_toNat {r : Ring} (hc : r.current.toNat + 1 ≤ counterMax) :
    r.advanced.current.toNat = r.current.toNat + 1 :=
  counterOf_toNat hc

theorem Ring.advanced_remain_toNat (r : Ring) : r.advanced.remain.toNat = r.remain.toNat - 1 :=
  counterOf_toNat ((Nat.sub_le _ _).trans (Nat.le_sub_one_of_lt r.remain.isLt))

/-- A read takes the first unread sample and leaves the others unread. -/
theorem Ring.unread_eq_cons {r : Ring} (hr : 0 < r.remain.toNat) (hc : r.current.toNat + 1 ≤ counterMax) :
    r.unread = r.at r.current.toNat :: r.advanced.unread := by
  obtain ⟨n, hn⟩ := Nat.exists_eq_add_of_lt hr
  have hrest : r.advanced.remain.toNat = n := by rw [r.advanced_remain_toNat]; omega
  have hat : ∀ p, r.advanced.at p = r.at p := fun _ => rfl
  rw [Ring.unread, Ring.unread, hrest, Ring.advanced_current_toNat hc, hn, Nat.zero_add, List.range_succ_eq_map]
  simp [hat, Nat.add_assoc, Nat.add_comm 1]

/-- As many reads as there are unread samples respond with these, attenuated, and leave none. -/
theorem runCommands_readOne_drains (n : Nat) {s : State} (hn : s.ring.remain.toNat = n) (hf : s.fault = none)
    (ho : s.ring.isOpen = true) (hc : s.ring.cap ≠ 0#32) (hcur : s.ring.current.toNat + n ≤ counterMax) :
    ∃ u, runCommands (List.replicate n .readOne) s = some u ∧ u.ring.remain = 0#64 ∧
      u.consumer.output = s.consumer.output ++ s.ring.unread.map fun x => sext32 (s.ring.attenuate x) := by
  induction n generalizing s with
  | zero =>
    refine ⟨s, rfl, BitVec.eq_of_toNat_eq hn, ?_⟩
    simp [Ring.unread, hn]
  | succ n ih =>
    have hcur1 : s.ring.current.toNat + 1 ≤ counterMax := by omega
    have hr : s.ring.remain ≠ 0#64 := fun h => by simp [h] at hn
    have hread := exec_readOne_of_unread (s := { s with port := .consumer }) rfl ho hc hr hcur1
    obtain ⟨u, hrun, hrem, hout⟩ := ih
      (s := (({ s with port := .consumer } : State).setRing s.ring.advanced).respond
        [sext32 (s.ring.attenuate (s.ring.at s.ring.current.toNat))])
      (by simp [Ring.advanced_remain_toNat, hn]) hf ho hc
      (by simp only [State.respond_ring, State.setRing_ring, Ring.advanced_current_toNat hcur1]; omega)
    refine ⟨u, (runCommands_cons hread hf).trans hrun, hrem, hout.trans ?_⟩
    rw [Ring.unread_eq_cons (by omega) hcur1, List.map_cons, List.append_cons]
    rfl

/-! ### Samples appended to a silent ring (R183) -/

/-- The samples of a list and the zeros after them, element by element. -/
theorem map_range_getD_eq_append_replicate {xs : List Sample} {k : Nat} (h : xs.length ≤ k) :
    ((List.range k).map fun j => xs[j]?.getD 0#16) = xs ++ List.replicate (k - xs.length) 0#16 := by
  refine List.ext_getElem (by simp; omega) fun j hj _ => ?_
  by_cases hlt : j < xs.length
  · simp [hlt]
  · simp [hlt, List.getElem_append_right (Nat.le_of_not_lt hlt)]

/-- A block stored from index 0 of a silent space, without wrapping, leaves its samples and silence after them. -/
theorem Memory.read_storeWrapped_silent {cap : Nat} {xs : List Sample} (h : xs.length ≤ cap) (i : Nat) :
    Memory.read (Memory.storeWrapped cap 0 0 xs []) i = xs[i]?.getD 0#16 := by
  have hindex : ∀ k, k < xs.length → (0 + (0 + k)) % cap = k := fun k hk => by
    rw [Nat.zero_add, Nat.zero_add, Nat.mod_eq_of_lt (by omega)]
  by_cases hi : i < xs.length
  · have hlast := Memory.read_storeWrapped_last cap 0 0 i xs [] Memory.wf_nil hi fun l hl hil => by
      rw [hindex l hl, hindex i hi]
      exact hil.ne'
    rw [hindex i hi] at hlast
    rw [hlast, List.getElem?_eq_getElem hi, Option.getD_some]
  · rw [List.getElem?_eq_none (Nat.le_of_not_lt hi), Option.getD_none]
    exact Memory.read_storeWrapped_other cap 0 0 i xs [] Memory.wf_nil fun k hk => by
      rw [hindex k hk]
      omega

theorem Ring.silenced_remain_toNat (r : Ring) : r.silenced.remain.toNat = r.cap.toNat :=
  counterOf_toNat (by have := r.cap.isLt; unfold counterMax; omega)

/-- The ring after BUF_FILL_SILENT and a BUF_APPEND of `samples`. -/
def Ring.filledThenAppended (r : Ring) (samples : List Sample) : Ring := r.silenced.stored 0 samples

/-- The write tail of a silent ring is its capacity, which names index 0. -/
theorem Ring.stored_silenced_tail (r : Ring) (samples : List Sample) :
    r.silenced.stored (r.silenced.tail % r.silenced.cap.toNat) samples = r.filledThenAppended samples := by
  have htail : r.silenced.tail = r.silenced.cap.toNat := (Nat.zero_add _).trans r.silenced_remain_toNat
  rw [htail, Nat.mod_self, Ring.filledThenAppended]

section
variable {r : Ring} {samples : List Sample}

/-- No counter overflows: a capacity has 32 bits. -/
theorem Ring.cap_add_length_le_counterMax (hn : samples.length ≤ r.cap.toNat) :
    r.cap.toNat + samples.length ≤ counterMax := by
  have := r.cap.isLt
  unfold counterMax
  omega

theorem Ring.filledThenAppended_remain_toNat (hn : samples.length ≤ r.cap.toNat) :
    (r.filledThenAppended samples).remain.toNat = r.cap.toNat + samples.length :=
  calc (r.filledThenAppended samples).remain.toNat
      = (counterOf (r.cap.toNat + samples.length)).toNat := by rw [← r.silenced_remain_toNat]; rfl
    _ = r.cap.toNat + samples.length := counterOf_toNat (Ring.cap_add_length_le_counterMax hn)

theorem Ring.read_filledThenAppended (hn : samples.length ≤ r.cap.toNat) (i : Nat) :
    Memory.read (r.filledThenAppended samples).data i = samples[i]?.getD 0#16 :=
  Memory.read_storeWrapped_silent hn i

/-- What is then unread: the capacity's `cap` positions, and the first `samples.length` of them a second time. -/
theorem Ring.filledThenAppended_unread (hn : samples.length ≤ r.cap.toNat) :
    (r.filledThenAppended samples).unread =
      samples ++ List.replicate (r.cap.toNat - samples.length) 0#16 ++ samples := by
  have hat : ∀ p, (r.filledThenAppended samples).at p = samples[p % r.cap.toNat]?.getD 0#16 :=
    fun p => Ring.read_filledThenAppended hn _
  have hcur : (r.filledThenAppended samples).current.toNat = 0 := rfl
  have hfirst : ((List.range r.cap.toNat).map fun j => (r.filledThenAppended samples).at j) =
      samples ++ List.replicate (r.cap.toNat - samples.length) 0#16 := by
    rw [← map_range_getD_eq_append_replicate hn]
    refine List.map_congr_left fun j hj => ?_
    rw [hat, Nat.mod_eq_of_lt (List.mem_range.1 hj)]
  have hagain : ((List.range samples.length).map fun j => (r.filledThenAppended samples).at (r.cap.toNat + j)) =
      samples := by
    have hself := map_range_getD_eq_append_replicate (le_refl samples.length)
    rw [Nat.sub_self, List.replicate_zero, List.append_nil] at hself
    refine (List.map_congr_left fun j hj => ?_).trans hself
    rw [hat, Nat.add_mod_left, Nat.mod_eq_of_lt ((List.mem_range.1 hj).trans_le hn)]
  simp only [Ring.unread, hcur, Nat.zero_add, Ring.filledThenAppended_remain_toNat hn, List.range_add, List.map_append,
    List.map_map, Function.comp_def, hfirst, hagain]

end

theorem runCommands_fillSilent_append {s : State} {samples : List Sample} (hf : s.fault = none)
    (ho : s.ring.isOpen = true) (hc : s.ring.cap ≠ 0#32) (hn : samples.length ≤ s.ring.cap.toNat) :
    runCommands [.bufFillSilent, .bufAppend samples 0#16] s =
      some (({ s with port := .producer } : State).setRing (s.ring.filledThenAppended samples)) := by
  rw [runCommands_bufFillSilent _ hf ho, runCommands_bufAppend, State.setRing_ring, Ring.stored_silenced_tail]
  · rfl
  · exact hf
  · simp [payloadReserved]
  · exact ho
  · exact hc
  · exact s.ring.silenced_remain_toNat ▸ Ring.cap_add_length_le_counterMax hn

/-- Settles O45: the append lands on index 0 (`runCommands_fillSilent_append`), so what is unread is the samples, the
silence left, and, past the capacity, the samples again (`Ring.filledThenAppended_unread`); the reads respond with what
is unread (`runCommands_readOne_drains`). -/
theorem appendAfterFillSilentPlaysTwice : Obligations.AppendAfterFillSilentPlaysTwice := by
  intro s samples hf ho hc hn
  have hremain := Ring.filledThenAppended_remain_toNat hn
  obtain ⟨u, hreads, hdrained, hout⟩ := runCommands_readOne_drains (s.ring.cap.toNat + samples.length)
    (s := ({ s with port := .producer } : State).setRing (s.ring.filledThenAppended samples)) hremain hf ho hc
    ((Nat.zero_add _).trans_le (Ring.cap_add_length_le_counterMax hn))
  refine ⟨_, u, runCommands_fillSilent_append hf ho hc hn, rfl, hremain, fun j hj => ?_, fun j hj => ?_, hreads,
    hdrained, ?_⟩
  · simp [Ring.read_filledThenAppended hn, hj]
  · simp [Ring.read_filledThenAppended hn, hj]
  · rw [State.setRing_ring, Ring.filledThenAppended_unread hn] at hout
    exact hout

end Sys2Proof.Machine
end

section
/-! PROOFS. The consumer port (44_consumer.md): the attenuation of a read (R191) and the underrun (R192). -/

namespace Sys2Proof.Machine

/-! ### The attenuation, one equation per case (R191) -/

/-- The shift of R11 is the floor of the rational quotient, for a negative sample too. -/
theorem asr_eq_floor (x : Int) (k : Nat) : asr x k = ⌊(x : ℚ) / 2 ^ k⌋ := by
  have hfloor := Rat.floor_intCast_div_natCast x (2 ^ k)
  push_cast at hfloor
  exact hfloor.symm

section
variable {r : Ring}

theorem Ring.attenuate_of_mute (hm : r.mute = true) (x : Sample) : r.attenuate x = 0#16 := by
  rw [Ring.attenuate, if_pos hm]

theorem Ring.attenuate_of_volume_zero (hv : r.volume = 0#3) (x : Sample) : r.attenuate x = 0#16 := by
  rw [Ring.attenuate, if_pos hv, ite_self]

theorem Ring.attenuate_of_volume_full (hm : r.mute ≠ true) (hv : r.volume = 7#3) (x : Sample) :
    r.attenuate x = x := by
  rw [Ring.attenuate, if_neg hm, if_neg (by simp [hv]), if_pos hv]

/-- The shifted sample is again one: no bit is lost in `sampleOf` (`asr_range`). -/
theorem Ring.attenuate_toInt_of_shift (hm : r.mute ≠ true) (h0 : r.volume ≠ 0#3) (h7 : r.volume ≠ 7#3) (x : Sample) :
    (r.attenuate x).toInt = asr x.toInt (7 - r.volume.toNat) := by
  obtain ⟨hlow, hhigh⟩ := asr_range x (7 - r.volume.toNat)
  rw [Ring.attenuate, if_neg hm, if_neg h0, if_neg h7, sampleOf_toInt hlow hhigh]

end

/-- Settles O48, along the cases of `Atten`: the shift of volumes 1 to 6 is a floor (`asr_eq_floor`) that a sample holds
(`Ring.attenuate_toInt_of_shift`). -/
theorem attenuationShiftsTowardMinusInfinity : Obligations.AttenuationShiftsTowardMinusInfinity := by
  intro r x
  have hvolume (v : BitVec 3) : r.volume.toNat = v.toNat ↔ r.volume = v := BitVec.toNat_inj
  split_ifs with hm h0 h7
  · rw [Ring.attenuate_of_mute hm, BitVec.toInt_zero]
  · rw [Ring.attenuate_of_volume_zero ((hvolume 0#3).1 h0), BitVec.toInt_zero]
  · rw [Ring.attenuate_of_volume_full hm ((hvolume 7#3).1 h7)]
  · rw [Ring.attenuate_toInt_of_shift hm (mt (hvolume 0#3).2 h0) (mt (hvolume 7#3).2 h7), asr_eq_floor]

/-! ### The underrun (R192) -/

theorem State.respond_of_consumer {s : State} (hp : s.port = .consumer) (ws : List Word) :
    s.respond ws = { s with consumer := { s.consumer with output := s.consumer.output ++ ws } } := by
  conv_lhs => rw [State.respond, hp]
  rfl

/-- An underrun is found before the position is looked at: `current` may be `2^64 - 1` and the capacity anything. -/
theorem exec_readOne_of_underrun {s : State} (hp : s.port = .consumer) (ho : s.ring.isOpen = true)
    (hr : s.ring.remain = 0#64) : exec .readOne s = .next (s.respond [0#32]) := by
  show execReadOne s = _
  rw [execReadOne, onItsPort_of_eq hp, whenOpen_of_open ho, if_pos hr]

/-- Settles O47: an underrun only responds (`exec_readOne_of_underrun`), and on the consumer port. -/
theorem underrunReturnsSilence : Obligations.UnderrunReturnsSilence := by
  intro s hp ho hr
  exact (exec_readOne_of_underrun hp ho hr).trans (congrArg Host.Outcome.next (State.respond_of_consumer hp [0]))

end Sys2Proof.Machine
end

section
/-! PROOFS. The header word of a decoded command (30_encoding.md, R90, R95): it is the header received. -/

namespace Sys2Proof

/-! ### The fields of a header, put back in their place -/

/-- A field of a word, put back where it was taken from, is the word under the field's mask. -/
theorem extractLsb'_shiftLeft_eq_and (h : Word) (start len : Nat) :
    (h.extractLsb' start len).setWidth 32 <<< start = h &&& ((BitVec.allOnes len).setWidth 32 <<< start) := by
  ext i hi
  by_cases hs : i < start
  · simp [hs]
  · have hadd : start + (i - start) = i := by omega
    simp [hs, hadd, hi, Bool.and_comm]

theorem extractLsb'_zero_eq_and (h : Word) (len : Nat) :
    (h.extractLsb' 0 len).setWidth 32 = h &&& (BitVec.allOnes len).setWidth 32 := by
  simpa using extractLsb'_shiftLeft_eq_and h 0 len

theorem chField_shiftLeft_eq_and (h : Word) : BitVec.ofNat 32 (chField h).val <<< 16 = h &&& 0x00070000#32 := by
  have hvoice : BitVec.ofNat 32 (chField h).val = (h.extractLsb' 16 3).setWidth 32 := BitVec.ofNat_toNat 32 _
  rw [hvoice]
  exact extractLsb'_shiftLeft_eq_and h 16 3

theorem muteField_eq_and (h : Word) : (BitVec.ofBool (muteField h)).setWidth 32 = h &&& 0x00000001#32 := by
  have hbit : BitVec.ofBool (muteField h) = h.extractLsb' 0 1 := by
    ext i hi
    simp [muteField, show i = 0 by omega]
  rw [hbit]
  exact extractLsb'_zero_eq_and h 1

theorem volumeField_eq_and (h : Word) : (volumeField h).setWidth 32 = h &&& 0x00000007#32 :=
  extractLsb'_zero_eq_and h 3

theorem immField_eq_and (h : Word) : (immField h).setWidth 32 = h &&& 0x0000FFFF#32 :=
  extractLsb'_zero_eq_and h 16

/-! ### Decoding -/

theorem takeSamples_length {n : Nat} {ws rest : List Word} {samples : List Sample} {pad : BitVec 16}
    (h : takeSamples n ws = some (samples, pad, rest)) : samples.length = n := by
  induction n, ws using takeSamples.induct generalizing samples pad rest with
  | case1 ws => cases h; rfl
  | case2 w ws => cases h; rfl
  | case3 n w ws ss p r hrest ih =>
    simp only [takeSamples, hrest] at h
    cases h
    simp [ih hrest]
  | case4 n w ws hrest ih => simp [takeSamples, hrest] at h
  | case5 n => simp [takeSamples] at h

/-- The count field of a write's header is the number of samples decoded (R84, R88). -/
theorem sampleCount_eq_and {h : Word} {ws rest : List Word} {samples : List Sample} {pad : BitVec 16}
    (hs : takeSamples (immField h).toNat ws = some (samples, pad, rest)) :
    (BitVec.ofNat 16 samples.length).setWidth 32 = h &&& 0x0000FFFF#32 := by
  rw [takeSamples_length hs, BitVec.ofNat_toNat, BitVec.setWidth_eq, immField_eq_and]

/-- A decoded command has the opcode of the row, and its header fields are the header's bits outside the row's mask. -/
theorem decodeOperands_header {op : Opcode} {h : Word} {ws rest : List Word} {i : Instr}
    (hd : decodeOperands op h ws = .ok (i, rest)) :
    i.opcode = op ∧ i.headerFields = h &&& ~~~op.row.mask := by
  cases op
  case chWrite =>
    cases ws <;> cases hd
    exact ⟨rfl, chField_shiftLeft_eq_and h⟩
  case voiceMute =>
    cases hd
    refine ⟨rfl, ?_⟩
    rw [Instr.headerFields, chField_shiftLeft_eq_and, muteField_eq_and, ← BitVec.and_or_distrib_left]
    rfl
  case mixRead => cases hd; exact ⟨rfl, immField_eq_and h⟩
  case bufOpen =>
    cases ws <;> cases hd
    exact ⟨rfl, BitVec.and_zero.symm⟩
  case bufWrite =>
    rcases ws with _ | ⟨ol, _ | ⟨oh, ws⟩⟩
    · cases hd
    · cases hd
    · cases hs : takeSamples (immField h).toNat ws with
      | none => simp [decodeOperands, hs] at hd
      | some found =>
        simp only [decodeOperands, hs] at hd
        cases hd
        exact ⟨rfl, sampleCount_eq_and hs⟩
  case bufAppend =>
    cases hs : takeSamples (immField h).toNat ws with
    | none => simp [decodeOperands, hs] at hd
    | some found =>
      simp only [decodeOperands, hs] at hd
      cases hd
      exact ⟨rfl, sampleCount_eq_and hs⟩
  case bufSetVolume => cases hd; exact ⟨rfl, volumeField_eq_and h⟩
  case bufSetMute => cases hd; exact ⟨rfl, muteField_eq_and h⟩
  all_goals
    cases hd
    exact ⟨rfl, BitVec.and_zero.symm⟩

/-- The header of a decoded command is the header word received: the row gives the bits under its mask, the fields the
others. -/
theorem head?_of_decode {ws rest : List Word} {i : Instr} (hd : decode ws = .ok (i, rest)) :
    ws.head? = some i.header := by
  cases ws with
  | nil => cases hd
  | cons h ws =>
    cases hs : selectRow h with
    | none => simp [decode, hs] at hd
    | some r =>
      obtain ⟨hr, hbits⟩ := selectRow_some hs
      obtain ⟨hop, hfields⟩ := decodeOperands_header ((decode_of_selectRow hs ws).symm.trans hd)
      rw [← row_of_mem_opcodeMap r hr] at hfields
      rw [List.head?_cons, Instr.header, hop, ← row_of_mem_opcodeMap r hr, hfields, ← hbits,
        ← BitVec.and_or_distrib_left, BitVec.or_not_self, BitVec.and_allOnes]

end Sys2Proof
end

section
/-! PROOFS. Faults (60_exceptions.md, R200): a fault writes its record and nothing else, and a halted block does not
change. -/

namespace Sys2Proof.Machine

/-- The effect of a command never writes FAULT (R33, R200). -/
theorem CommandEffect.fault_eq {s t : State} {i : Instr} (h : CommandEffect s t i) : t.fault = s.fault := by
  cases i
  case chWrite => subst h; rfl
  case voiceMute => subst h; rfl
  case generate => subst h; rfl
  case mixRead => obtain ⟨-, rfl⟩ := h; exact State.respond_fault s _
  case bufOpen => obtain ⟨-, rfl⟩ := h; rfl
  case bufWrite => obtain ⟨-, -, -, rfl⟩ := h; rfl
  case bufAppend => obtain ⟨-, -, -, rfl⟩ := h; rfl
  case bufFillSilent => obtain ⟨-, rfl⟩ := h; rfl
  case bufSetVolume => obtain ⟨-, rfl⟩ := h; rfl
  case bufSetMute => obtain ⟨-, rfl⟩ := h; rfl
  case readOne => obtain ⟨-, ⟨-, rfl⟩ | ⟨-, -, -, rfl⟩⟩ := h <;> exact State.respond_fault _ _
  case callbackDone => obtain ⟨-, -, rfl⟩ := h; rfl
  all_goals
    obtain ⟨-, rfl⟩ := h
    exact State.respond_fault s _

/-- A command that leaves a fault has taken that fault and done nothing else. -/
theorem exec_faulted {i : Instr} {s t : State} {r : FaultRecord} (hs : s.fault = none) (h : exec i s = .next t)
    (ht : t.fault = some r) : ∃ code, r = ⟨code, s.port, i.header⟩ ∧ t = s.takeFault code i.header := by
  rcases exec_next h with ⟨code, rfl⟩ | ⟨-, heffect⟩
  · exact ⟨code, (Option.some.inj ht).symm, rfl⟩
  · rw [heffect.fault_eq, hs] at ht
    cases ht

/-- A step that leaves a fault has taken it in the turn of a port with a header to take; of the rest of the state only
that port's stream, the turns and the current port may differ. -/
theorem step_faulted {s t : State} {r : FaultRecord} (hs : s.fault = none) (h : step s = .next t)
    (ht : t.fault = some r) :
    ∃ code p turns hd ws, s.schedule = p :: turns ∧ (s.io p).input.head? = some hd ∧ r = ⟨code, p, hd⟩ ∧
      t = ((s.turnOf p turns).setInput p ws).takeFault code hd := by
  obtain ⟨-, ⟨-, rfl⟩ | ⟨-, -, rfl⟩ | ⟨p, turns, -, hturn, hcase⟩⟩ := step_cases h
  · simp [hs] at ht
  · simp [hs] at ht
  · rcases hcase with ⟨-, rfl⟩ | ⟨hd, ws, e, hin, -, rfl⟩ | ⟨i, rest, hdec, hexec⟩
    · simp [hs] at ht
    · refine ⟨arrivalFault p hd, p, turns, hd, ws, hturn, by simp [hin], ?_, rfl⟩
      simpa [eq_comm] using ht
    · obtain ⟨code, rfl, rfl⟩ := exec_faulted (by simpa using hs) hexec ht
      exact ⟨code, p, turns, i.header, rest, hturn, head?_of_decode hdec, by simp, rfl⟩

theorem step_of_halted {s : State} (hwf : s.cfg.wf = true) (hh : s.halted = true) : step s = .next s := by
  simp [step, arrive, hwf, hh]

/-- Settles O17: a command or a step that leaves a fault has only taken it (`exec_faulted`, `step_faulted`), with the
header received (`head?_of_decode`), and a halted block takes no turn (`step_of_halted`). -/
theorem faultHaltsWithNoOtherEffect : Obligations.FaultHaltsWithNoOtherEffect := by
  refine ⟨fun i s t r hs h ht => ?_, fun s t r hs h ht => ?_, fun s r hwf hf => ?_⟩
  · obtain ⟨code, rfl, rfl⟩ := exec_faulted hs h ht
    exact ⟨rfl, rfl, rfl⟩
  · obtain ⟨code, p, turns, hd, ws, hturn, hhead, rfl, rfl⟩ := step_faulted hs h ht
    exact ⟨by simp, by simp, by simp, by simp, by simp, by simp, turns, hturn, hhead⟩
  · exact step_of_halted hwf (by simp [State.halted, hf])

end Sys2Proof.Machine
end

section
/-! PROOFS. Hazards (70_reset_and_hazards.md): a waveform switch waits for the wrap (R251), and the block of silent
voices (R244). -/

namespace Sys2Proof.Machine

/-! ### A voice's place in its cycle (R135), and the waveform it latches there (R136, R251) -/

/-- Phase and drift as one position in the cycle, which is `PM * SAMPLE_RATE` long: the dividend that R251's sample
number counts from. -/
def GeneratorUnit.cyclePos (c : Config) (g : GeneratorUnit) : Nat := g.phase * c.sampleRate + g.drift

theorem GeneratorUnit.cyclePos_lt {c : Config} {g : GeneratorUnit} (hphase : g.phase < c.phaseMod)
    (hdrift : g.drift < c.sampleRate) : g.cyclePos c < c.phaseMod * c.sampleRate :=
  calc g.cyclePos c < (g.phase + 1) * c.sampleRate := by rw [cyclePos, Nat.succ_mul]; omega
    _ ≤ c.phaseMod * c.sampleRate := Nat.mul_le_mul_right _ hphase

/-- The unreduced advance of R135 moves the position by `f * REF_RATE` exactly. -/
theorem rawPhase_add_nextDrift (c : Config) (r : ChannelRegister) (g : GeneratorUnit) :
    rawPhase c r g * c.sampleRate + nextDrift c r g = g.cyclePos c + r.freq.toNat * c.refRate := by
  rw [rawPhase, nextDrift, Nat.add_mul, Nat.add_assoc, Nat.div_add_mod', advanceTotal, GeneratorUnit.cyclePos,
    Nat.add_assoc]

theorem wraps_iff {c : Config} (hc : c.wf = true) (r : ChannelRegister) (g : GeneratorUnit) :
    wraps c r g = true ↔ c.phaseMod * c.sampleRate ≤ g.cyclePos c + r.freq.toNat * c.refRate := by
  have hdrift := nextDrift_lt c r g (sampleRate_pos hc)
  have hraw : rawPhase c r g = (g.cyclePos c + r.freq.toNat * c.refRate) / c.sampleRate := by
    rw [← rawPhase_add_nextDrift, Nat.mul_comm, Nat.mul_add_div (sampleRate_pos hc), Nat.div_eq_of_lt hdrift,
      Nat.add_zero]
  rw [wraps, decide_eq_true_iff, hraw, Nat.le_div_iff_mul_le (sampleRate_pos hc)]

theorem soundingUnit_cyclePos_of_not_wraps {c : Config} {r : ChannelRegister} (m : Bool) {g : GeneratorUnit}
    (h : wraps c r g = false) :
    (soundingUnit c r m g).cyclePos c = g.cyclePos c + r.freq.toNat * c.refRate := by
  have hphase : nextPhase c r g = rawPhase c r g := Nat.mod_eq_of_lt (by simpa [wraps] using h)
  rw [← rawPhase_add_nextDrift, ← hphase]
  rfl

theorem nextWave_of_none {c : Config} (r : ChannelRegister) {g : GeneratorUnit} (h : g.lwave = none) :
    nextWave c r g = r.wave := by
  simp [nextWave, h]

theorem nextWave_of_some {c : Config} (r : ChannelRegister) {g : GeneratorUnit} {w : BitVec 3}
    (h : g.lwave = some w) : nextWave c r g = if wraps c r g then r.wave else w := by
  simp [nextWave, h]

/-- A voice that is not silent writes back the unit of a sounding voice (R131). -/
theorem voiceSample_unit_of_not_silent {c : Config} {r : ChannelRegister} (m : Bool) {g : GeneratorUnit}
    (h : ¬ (r.gain = 0#4 ∧ g.cur = 0)) : (voiceSample c r m g).2 = soundingUnit c r m g := by
  rw [voiceSample_sounding m (Bool.eq_false_iff.2 (mt (isSilent_iff r g).1 h))]

/-- The latched waveform after `j` samples is the register's once the position has moved past the end of the cycle it
started in. By induction on the samples: a first sample that wraps latches the register's waveform, and every later
latch is of that same waveform; one that does not wrap leaves `w` and a position `f * REF_RATE` further on. -/
theorem voiceAfter_lwave {c : Config} {r : ChannelRegister} (m : Bool) {g : GeneratorUnit} {w : BitVec 3} {j : Nat}
    (hc : c.wf = true) (hphase : g.phase < c.phaseMod) (hdrift : g.drift < c.sampleRate) (hw : g.lwave = some w)
    (hsound : ∀ k, k < j → ¬ (r.gain = 0#4 ∧ (voiceAfter c r m k g).cur = 0)) :
    (voiceAfter c r m j g).lwave =
      some (if c.phaseMod * c.sampleRate ≤ g.cyclePos c + j * (r.freq.toNat * c.refRate) then r.wave else w) := by
  induction j generalizing g w with
  | zero =>
    have hpos := GeneratorUnit.cyclePos_lt hphase hdrift
    rw [Nat.zero_mul, Nat.add_zero, if_neg hpos.not_ge]
    exact hw
  | succ j ih =>
    have hunit : (voiceSample c r m g).2 = soundingUnit c r m g :=
      voiceSample_unit_of_not_silent m (hsound 0 j.succ_pos)
    have hrest : ∀ k, k < j → ¬ (r.gain = 0#4 ∧ (voiceAfter c r m k (soundingUnit c r m g)).cur = 0) := by
      intro k hk
      rw [← hunit]
      exact hsound (k + 1) (Nat.succ_lt_succ hk)
    have hlatched : (soundingUnit c r m g).lwave = some (if wraps c r g then r.wave else w) :=
      congrArg some (nextWave_of_some r hw)
    have hlater := ih (nextPhase_lt c r g) (nextDrift_lt c r g (sampleRate_pos hc)) hlatched hrest
    rw [voiceAfter, hunit, hlater, Nat.succ_mul]
    cases hwrap : wraps c r g with
    | true =>
      have hend := (wraps_iff hc r g).1 hwrap
      rw [if_pos rfl, ite_self, if_pos (by omega)]
    | false =>
      rw [if_neg Bool.false_ne_true, soundingUnit_cyclePos_of_not_wraps m hwrap, Nat.add_assoc,
        Nat.add_comm (r.freq.toNat * c.refRate)]

/-- Settles O31: where the voice stands against the end of its cycle says which waveform is latched
(`voiceAfter_lwave`), and each clause bounds that position; a start from silence is the first case of R136. -/
theorem waveformSwitchWaitsForTheWrap : Obligations.WaveformSwitchWaitsForTheWrap := by
  rintro c r m g hc ⟨hphase, hdrift, -, -⟩
  refine ⟨fun w j hw hsound => ?_, fun hnone hsound => ?_⟩
  · intro left
    have hpos : g.cyclePos c < c.phaseMod * c.sampleRate := GeneratorUnit.cyclePos_lt hphase hdrift
    have hleft : left = c.phaseMod * c.sampleRate - g.cyclePos c := rfl
    rw [voiceAfter_lwave m hc hphase hdrift hw hsound]
    refine ⟨fun h => ?_, fun h => ?_, fun h => ?_, fun h => ?_⟩
    · rw [if_neg (by omega)]
    · rw [if_pos (by omega)]
    · rw [if_pos (by omega)]
    · have hstill : j * (r.freq.toNat * c.refRate) = 0 := by simp [h]
      rw [if_neg (by omega)]
  · rw [voiceAfter, voiceAfter, voiceSample_unit_of_not_silent m hsound]
    exact congrArg some (nextWave_of_none r hnone)

/-! ### The block of silent voices (R131, R140, R244) -/

theorem exec_generate_of_producer {s : State} (hp : s.port = .producer) :
    exec .generate s = .next (s.setBlock (generateBlock s.cfg s.rb s.vmute s.cfg.blockLen s.gu).2
      (Memory.ofSamples (generateBlock s.cfg s.rb s.vmute s.cfg.blockLen s.gu).1)) := by
  show execGenerate s = _
  rw [execGenerate, onItsPort_of_eq hp]

theorem isSilent_idle {r : ChannelRegister} (h : r.gain = 0#4) : isSilent r GeneratorUnit.idle = true :=
  (isSilent_iff r _).2 ⟨h, rfl⟩

section
variable (c : Config) {rb : PerVoice ChannelRegister} (vm : PerVoice Bool) {gu : PerVoice GeneratorUnit}

theorem frameUnits_of_silent (h : ∀ v, isSilent (rb.get v) (gu.get v) = true) :
    frameUnits c rb vm gu = PerVoice.fill GeneratorUnit.idle := by
  ext v
  rw [frameUnits_get, voiceSample_silent _ (h v), PerVoice.get_fill]

theorem frameSample_of_silent (h : ∀ v, isSilent (rb.get v) (gu.get v) = true) :
    frameSample c rb vm gu = mixOf c fun _ => 0 := by
  simp [frameSample, voiceSample_silent _ (h _)]

/-- A block of at least one frame: its first sample leaves every voice idle, and so silent for the samples after. -/
theorem generateBlock_of_silent (n : Nat) (h : ∀ v, isSilent (rb.get v) (gu.get v) = true) :
    generateBlock c rb vm (n + 1) gu =
      (List.replicate (n + 1) (mixOf c fun _ => 0), PerVoice.fill GeneratorUnit.idle) := by
  induction n generalizing gu with
  | zero => simp [generateBlock_succ, frameUnits_of_silent c vm h, frameSample_of_silent c vm h]
  | succ n ih =>
    have hidle : ∀ v, isSilent (rb.get v) ((PerVoice.fill GeneratorUnit.idle).get v) = true := by
      intro v
      obtain ⟨hgain, -⟩ := (isSilent_iff _ _).1 (h v)
      rw [PerVoice.get_fill]
      exact isSilent_idle hgain
    rw [generateBlock_succ, frameUnits_of_silent c vm h, frameSample_of_silent c vm h, ih hidle]
    rfl

end

/-- Eight silent voices mix to the DC centre alone (R140). -/
theorem mixOf_zero_toInt (c : Config) : (mixOf c fun _ => 0).toInt = sat16 c.dcCenter.toInt := by
  simp [mixOf_toInt, tdiv]

/-- Settles O35: the state after reset is silent, and a GENERATE from silence mixes zeros and leaves every voice idle
(`generateBlock_of_silent`); a block of no samples makes both claims of it empty. -/
theorem silentVoicesMixToTheDcCentre : Obligations.SilentVoicesMixToTheDcCentre := by
  refine ⟨fun c v => ⟨?_, PerVoice.get_fill _ v⟩, fun s hp hquiet => ⟨_, exec_generate_of_producer hp, ?_⟩⟩
  · exact congrArg ChannelRegister.gain (PerVoice.get_fill ChannelRegister.zero v)
  · have hsilent : ∀ v, isSilent (s.rb.get v) (s.gu.get v) = true := fun v => (isSilent_iff _ _).2 (hquiet v)
    have hlen : s.cfg.sampleRate / 60 = s.cfg.blockLen := rfl
    rw [hlen]
    cases s.cfg.blockLen with
    | zero => exact ⟨fun k hk => absurd hk k.not_lt_zero, fun h => absurd h (by decide)⟩
    | succ n =>
      rw [generateBlock_of_silent s.cfg s.vmute n hsilent]
      refine ⟨fun k hk => ?_, fun _ v => PerVoice.get_fill _ v⟩
      have hread : (List.replicate (n + 1) (mixOf s.cfg fun _ => 0))[k]?.getD 0#16 = mixOf s.cfg fun _ => 0 := by
        simp [hk]
      rw [State.setBlock_mix, Memory.read_ofSamples, hread, mixOf_zero_toInt]
      rfl

end Sys2Proof.Machine
end

section
/-! PROOFS. Encoding (30_encoding.md): the decoder and the encoder are inverse to each other, field by field, payload
and command (R80 to R95). -/

namespace Sys2Proof

/-! ### The fields of the operand words -/

section
variable (reserved : BitVec 5) (wave : BitVec 3) (gain : BitVec 4) (freq : BitVec 20)

theorem reservedField_channelWord : reservedField (channelWord reserved wave gain freq) = reserved := by
  unfold reservedField channelWord
  rw [BitVec.extractLsb'_append_eq_of_le (by decide), BitVec.extractLsb'_append_eq_of_le (by decide)]
  exact BitVec.extractLsb'_append_eq_left

theorem waveField_channelWord : waveField (channelWord reserved wave gain freq) = wave := by
  unfold waveField channelWord
  rw [BitVec.extractLsb'_append_eq_of_le (by decide), BitVec.extractLsb'_append_eq_of_le (by decide)]
  exact BitVec.extractLsb'_append_eq_right

theorem gainField_channelWord : gainField (channelWord reserved wave gain freq) = gain := by
  unfold gainField channelWord
  rw [BitVec.extractLsb'_append_eq_of_le (by decide)]
  exact BitVec.extractLsb'_append_eq_right

theorem freqField_channelWord : freqField (channelWord reserved wave gain freq) = freq :=
  BitVec.extractLsb'_append_eq_right

end

theorem channelWord_fields (w : Word) :
    channelWord (reservedField w) (waveField w) (gainField w) (freqField w) = w := by
  unfold channelWord reservedField waveField gainField freqField
  rw [BitVec.extractLsb'_append_extractLsb'_eq_extractLsb' (by decide),
    BitVec.extractLsb'_append_extractLsb'_eq_extractLsb' (by decide),
    BitVec.extractLsb'_append_extractLsb'_eq_extractLsb' (by decide)]
  exact BitVec.extractLsb'_eq_self

theorem offsetOf_halves (offset : BitVec 64) :
    offsetOf (offset.extractLsb' 0 32) (offset.extractLsb' 32 32) = offset := by
  unfold offsetOf
  exact (BitVec.extractLsb'_append_extractLsb'_eq_extractLsb' (by decide)).trans BitVec.extractLsb'_eq_self

theorem offsetOf_low (ol oh : Word) : (offsetOf ol oh).extractLsb' 0 32 = ol :=
  BitVec.extractLsb'_append_eq_right

theorem offsetOf_high (ol oh : Word) : (offsetOf ol oh).extractLsb' 32 32 = oh :=
  BitVec.extractLsb'_append_eq_left

/-! ### The payload (R88) -/

theorem takeSamples_payloadWords (samples : List Sample) {pad : BitVec 16}
    (h : samples.length % 2 = 0 → pad = 0#16) (rest : List Word) :
    takeSamples samples.length (payloadWords samples pad ++ rest) = some (samples, pad, rest) := by
  induction samples, pad using payloadWords.induct with
  | case1 pad => rw [h rfl]; rfl
  | case2 x pad => simp [payloadWords, takeSamples, lowHalf_append, highHalf_append]
  | case3 x y ss pad ih =>
    have heven : ss.length % 2 = 0 → pad = 0#16 := fun he => h (by simp only [List.length_cons]; omega)
    simp [payloadWords, takeSamples, lowHalf_append, highHalf_append, ih heven]

/-- What `takeSamples` accepts is a payload: its samples and the unused half word pack to the words read. -/
theorem payloadWords_of_takeSamples {n : Nat} {ws rest : List Word} {samples : List Sample} {pad : BitVec 16}
    (h : takeSamples n ws = some (samples, pad, rest)) :
    payloadWords samples pad ++ rest = ws ∧ (samples.length % 2 = 0 → pad = 0#16) := by
  induction n, ws using takeSamples.induct generalizing samples pad rest with
  | case1 ws => cases h; exact ⟨rfl, fun _ => rfl⟩
  | case2 w ws => cases h; exact ⟨by simp [payloadWords, highHalf_append_lowHalf], by simp⟩
  | case3 n w ws ss p r hrest ih =>
    simp only [takeSamples, hrest] at h
    cases h
    obtain ⟨hwords, hpad⟩ := ih hrest
    exact ⟨by simp [payloadWords, highHalf_append_lowHalf, hwords], fun he => hpad (by simp at he; omega)⟩
  | case4 n w ws hrest ih => simp [takeSamples, hrest] at h
  | case5 n => simp [takeSamples] at h

theorem payloadWords_length (samples : List Sample) (pad : BitVec 16) :
    (payloadWords samples pad).length = (samples.length + 1) / 2 := by
  induction samples, pad using payloadWords.induct with
  | case1 pad => rfl
  | case2 x pad => simp [payloadWords]
  | case3 x y ss pad ih => simp only [payloadWords, List.length_cons, ih]; omega

/-- Payload word `j` holds sample `2j` in its low half, and in its high half sample `2j + 1`, or `pad` where there is
no such sample. -/
theorem payloadWords_getElem? {samples : List Sample} {j : Nat} (pad : BitVec 16) (hj : 2 * j < samples.length) :
    (payloadWords samples pad)[j]? = some (samples[2 * j + 1]?.getD pad ++ samples[2 * j] : BitVec 32) := by
  induction samples, pad using payloadWords.induct generalizing j with
  | case1 pad => simp at hj
  | case2 x pad =>
    obtain rfl : j = 0 := by simp at hj; omega
    rfl
  | case3 x y ss pad ih =>
    cases j with
    | zero => rfl
    | succ j =>
      have hrest : 2 * j < ss.length := by simp at hj; omega
      simp [payloadWords, ih hrest, Nat.mul_succ]

/-- Settles O7: both halves of payload word `j` are read off `payloadWords_getElem?`. -/
theorem payloadPacksTwoSamplesAWord : Obligations.PayloadPacksTwoSamplesAWord := by
  intro samples pad
  refine ⟨payloadWords_length samples pad, fun j hj =>
    ⟨_, payloadWords_getElem? pad hj, ?_, fun hodd => ?_, fun hlast => ?_⟩⟩
  · exact (List.getElem?_eq_getElem hj).trans (congrArg some (lowHalf_append _ _).symm)
  · rw [List.getElem?_eq_getElem hodd]
    exact congrArg some (highHalf_append _ _).symm
  · rw [List.getElem?_eq_none hlast.ge]
    exact highHalf_append _ _

/-! ### Decoding an encoded command -/

theorem immField_bufWrite_header (offset : BitVec 64) (samples : List Sample) (pad : BitVec 16) :
    immField (Instr.bufWrite offset samples pad).header = BitVec.ofNat 16 samples.length :=
  immField_of_or (op := .bufWrite) (hi := 0x1100#16) (by decide) _

theorem immField_bufAppend_header (samples : List Sample) (pad : BitVec 16) :
    immField (Instr.bufAppend samples pad).header = BitVec.ofNat 16 samples.length :=
  immField_of_or (op := .bufAppend) (hi := 0x1200#16) (by decide) _

theorem ofNat_length_toNat {samples : List Sample} (h : samples.length ≤ 65535) :
    (BitVec.ofNat 16 samples.length).toNat = samples.length := by
  rw [BitVec.toNat_ofNat]
  exact Nat.mod_eq_of_lt (by omega)

theorem chField_chWrite_header (ch : Voice) (reserved : BitVec 5) (wave : BitVec 3) (gain : BitVec 4)
    (freq : BitVec 20) : chField (Instr.chWrite ch reserved wave gain freq).header = ch := by
  show chField (Opcode.chWrite.row.matchBits ||| BitVec.ofNat 32 ch.val <<< 16) = ch
  revert ch; decide

theorem fields_voiceMute_header (ch : Voice) (m : Bool) :
    chField (Instr.voiceMute ch m).header = ch ∧ muteField (Instr.voiceMute ch m).header = m := by
  revert ch m; decide

theorem volumeField_bufSetVolume_header (v : BitVec 3) : volumeField (Instr.bufSetVolume v).header = v := by
  revert v; decide

theorem muteField_bufSetMute_header (m : Bool) : muteField (Instr.bufSetMute m).header = m := by
  revert m; decide

theorem immField_mixRead_header (k : BitVec 16) : immField (Instr.mixRead k).header = k :=
  immField_of_or (op := .mixRead) (hi := 0x0400#16) (by decide) k

/-- The operands of a well-formed command are read back from its header and operand words. -/
theorem decodeOperands_operands {i : Instr} (h : i.wf = true) (rest : List Word) :
    decodeOperands i.opcode i.header (i.operands ++ rest) = .ok (i, rest) := by
  cases i with
  | chWrite ch reserved wave gain freq =>
    simp [Instr.opcode, Instr.operands, decodeOperands, chField_chWrite_header, reservedField_channelWord,
      waveField_channelWord, gainField_channelWord, freqField_channelWord]
  | voiceMute ch m =>
    obtain ⟨hch, hm⟩ := fields_voiceMute_header ch m
    simp [Instr.opcode, Instr.operands, decodeOperands, hch, hm]
  | mixRead k => simp [Instr.opcode, Instr.operands, decodeOperands, immField_mixRead_header]
  | bufWrite offset samples pad =>
    obtain ⟨hlen, hpad⟩ := (bufWrite_wf_iff offset samples pad).1 h
    simp only [Instr.opcode, Instr.operands, List.cons_append, decodeOperands, immField_bufWrite_header,
      ofNat_length_toNat hlen, takeSamples_payloadWords samples hpad, offsetOf_halves]
  | bufAppend samples pad =>
    obtain ⟨hlen, hpad⟩ := (bufAppend_wf_iff samples pad).1 h
    simp only [Instr.opcode, Instr.operands, decodeOperands, immField_bufAppend_header, ofNat_length_toNat hlen,
      takeSamples_payloadWords samples hpad]
  | bufSetVolume v => simp [Instr.opcode, Instr.operands, decodeOperands, volumeField_bufSetVolume_header]
  | bufSetMute m => simp [Instr.opcode, Instr.operands, decodeOperands, muteField_bufSetMute_header]
  | _ => rfl

/-- Settles O1: the header selects the command's row (`header_selects_row`), whose operands are read back from the words
after it (`decodeOperands_operands`). -/
theorem decodeReadsBackEncode : Obligations.DecodeReadsBackEncode := by
  intro i rest hwf
  rw [encode, List.cons_append, decode_of_selectRow (header_selects_row i), opcode_row_opcode]
  exact decodeOperands_operands hwf rest

end Sys2Proof
end

section
/-! PROOFS. Encoding (30_encoding.md): what the decoder accepts (R92, R93, R95), lengths (R93), the reserved headers
(R92), the byte transport (R53), and the words of the test vectors. -/

namespace Sys2Proof

/-! ### Encoding a decoded command (R95) -/

theorem immField_toNat_le (h : Word) : (immField h).toNat ≤ 65535 := Nat.le_of_lt_succ (immField h).isLt

/-- A decoded command is well formed, and its operand words are the words read. -/
theorem operands_of_decodeOperands {op : Opcode} {h : Word} {ws rest : List Word} {i : Instr}
    (hd : decodeOperands op h ws = .ok (i, rest)) : i.wf = true ∧ i.operands ++ rest = ws := by
  cases op
  case chWrite =>
    cases ws <;> cases hd
    exact ⟨rfl, congrArg (· :: _) (channelWord_fields _)⟩
  case bufOpen =>
    cases ws <;> cases hd
    exact ⟨rfl, rfl⟩
  case bufWrite =>
    rcases ws with _ | ⟨ol, _ | ⟨oh, ws⟩⟩
    · cases hd
    · cases hd
    · cases hs : takeSamples (immField h).toNat ws with
      | none => simp [decodeOperands, hs] at hd
      | some found =>
        obtain ⟨samples, pad, left⟩ := found
        simp only [decodeOperands, hs] at hd
        cases hd
        obtain ⟨hwords, hpad⟩ := payloadWords_of_takeSamples hs
        refine ⟨(bufWrite_wf_iff _ _ _).2 ⟨takeSamples_length hs ▸ immField_toNat_le h, hpad⟩, ?_⟩
        simp [Instr.operands, offsetOf_low, offsetOf_high, hwords]
  case bufAppend =>
    cases hs : takeSamples (immField h).toNat ws with
    | none => simp [decodeOperands, hs] at hd
    | some found =>
      obtain ⟨samples, pad, left⟩ := found
      simp only [decodeOperands, hs] at hd
      cases hd
      obtain ⟨hwords, hpad⟩ := payloadWords_of_takeSamples hs
      exact ⟨(bufAppend_wf_iff _ _).2 ⟨takeSamples_length hs ▸ immField_toNat_le h, hpad⟩, hwords⟩
  all_goals
    cases hd
    exact ⟨rfl, rfl⟩

/-- Settles O2: the header of what is decoded is the header read (`head?_of_decode`), its operand words the words read
(`operands_of_decodeOperands`). -/
theorem encodeRestoresDecodedWords : Obligations.EncodeRestoresDecodedWords := by
  intro ws i rest hd
  cases ws with
  | nil => cases hd
  | cons h ws =>
    have hhead : h = i.header := Option.some.inj (head?_of_decode hd)
    cases hs : selectRow h with
    | none => simp [decode, hs] at hd
    | some r =>
      obtain ⟨hwf, hwords⟩ := operands_of_decodeOperands ((decode_of_selectRow hs ws).symm.trans hd)
      exact ⟨hwf, by rw [encode, List.cons_append, hwords, hhead]⟩

/-! ### Lengths (R93) -/

theorem commandLength_header (i : Instr) : commandLength i.header = 1 + operandCount i.opcode i.header := by
  rw [commandLength, header_selects_row]
  exact congrArg (fun op => 1 + operandCount op i.header) (opcode_row_opcode i.opcode)

/-- A command has the operand words its header calls for. -/
theorem operands_length {i : Instr} (h : i.wf = true) : i.operands.length = operandCount i.opcode i.header := by
  cases i with
  | bufWrite offset samples pad =>
    obtain ⟨hlen, -⟩ := (bufWrite_wf_iff offset samples pad).1 h
    simp only [Instr.opcode, Instr.operands, operandCount, immField_bufWrite_header, ofNat_length_toNat hlen,
      List.length_cons, payloadWords_length]
    omega
  | bufAppend samples pad =>
    obtain ⟨hlen, -⟩ := (bufAppend_wf_iff samples pad).1 h
    simp only [Instr.opcode, Instr.operands, operandCount, immField_bufAppend_header, ofNat_length_toNat hlen,
      payloadWords_length]
  | _ => rfl

theorem encode_length {i : Instr} (h : i.wf = true) : (encode i).length = commandLength i.header := by
  rw [commandLength_header, encode, List.length_cons, operands_length h, Nat.add_comm]

/-- Settles O6: the header gives the length (`encode_length`), and the operand words of each command are counted. -/
theorem commandLengthsAreThoseOfTheMap : Obligations.CommandLengthsAreThoseOfTheMap := by
  intro i hwf
  refine ⟨encode_length hwf, ?_⟩
  cases i with
  | bufWrite offset samples pad =>
    simp only [encode, Instr.operands, List.length_cons, payloadWords_length]
    omega
  | bufAppend samples pad =>
    simp only [encode, Instr.operands, List.length_cons, payloadWords_length]
    omega
  | _ => rfl

/-- No proper initial part of a command decodes: what it decoded to would have the same header, and so the same
length. -/
theorem decode_take_encode {i : Instr} {k : Nat} (hwf : i.wf = true) (hk : 0 < k) (hlt : k < (encode i).length) :
    ∃ e, decode ((encode i).take k) = .error e := by
  cases hd : decode ((encode i).take k) with
  | error e => exact ⟨e, rfl⟩
  | ok found =>
    obtain ⟨j, rest⟩ := found
    obtain ⟨hjwf, hwords⟩ := encodeRestoresDecodedWords _ _ _ hd
    have hheader : j.header = i.header := by
      have hhead := congrArg List.head? hwords
      obtain ⟨n, rfl⟩ := Nat.exists_eq_succ_of_ne_zero hk.ne'
      simpa [encode] using hhead
    have hlen := congrArg List.length hwords
    rw [List.length_append, List.length_take, encode_length hjwf, hheader, ← encode_length hwf] at hlen
    omega

/-! ### Reserved headers (R92) -/

theorem matchBits_zero_below_opField : ∀ r ∈ opcodeMap, ∀ b < 24, r.matchBits.getLsbD b = false := by decide

/-- The defined opcodes (R90). -/
theorem opField_mem_defined : ∀ r ∈ opcodeMap, (opField r.matchBits).toNat ∈
    [0x01, 0x02, 0x03, 0x04, 0x10, 0x11, 0x12, 0x13, 0x14, 0x15, 0x16, 0x17, 0x18, 0x19, 0x1A, 0x20, 0x21] := by
  decide

theorem row_mem_opcodeMap (op : Opcode) : op.row ∈ opcodeMap := by cases op <;> decide

/-- Settles O5: a header that selects a row has its op field (`opField_of_selects`), which is a defined one and tells
the row, and it has no bit set below the op field that the mask compares (`matchBits_zero_below_opField`). -/
theorem reservedHeadersSelectNoRow : Obligations.ReservedHeadersSelectNoRow := by
  refine ⟨fun h hop => ?_, fun h op hop ⟨b, hb, hmask, hbit⟩ => ?_⟩
  · rw [selectRow_eq_none_iff]
    intro r hr
    by_contra hs
    have hdefined := opField_mem_defined r hr
    rw [← opField_of_selects hr (Bool.not_eq_false _ ▸ hs)] at hdefined
    exact hop hdefined
  · rw [selectRow_eq_none_iff]
    intro r hr
    by_contra hs
    have hsel : r.selects h = true := Bool.not_eq_false _ ▸ hs
    obtain rfl : r = op.row :=
      row_eq_of_opField_eq hr (row_mem_opcodeMap op) ((opField_of_selects hr hsel).symm.trans hop)
    have hzero := matchBits_zero_below_opField _ hr b hb
    rw [← (OpRow.selects_iff _ h).1 hsel, BitVec.getLsbD_and, hmask, hbit] at hzero
    cases hzero

/-! ### The byte transport (R53) -/

theorem word_of_bytes (w : Word) : (w.extractLsb' 24 8 ++ w.extractLsb' 16 8 ++ w.extractLsb' 8 8 ++
    w.extractLsb' 0 8 : BitVec 32) = w := by
  rw [BitVec.extractLsb'_append_extractLsb'_eq_extractLsb' (by decide),
    BitVec.extractLsb'_append_extractLsb'_eq_extractLsb' (by decide),
    BitVec.extractLsb'_append_extractLsb'_eq_extractLsb' (by decide)]
  exact BitVec.extractLsb'_eq_self

theorem bytesToWords_wordBytes (w : Word) (bs : List Byte) :
    bytesToWords (wordBytes w ++ bs) = w :: bytesToWords bs :=
  congrArg (· :: bytesToWords bs) (word_of_bytes w)

/-- Byte `b` of a word is its bits from `8 * b` on. -/
theorem wordBytes_getElem? (w : Word) : ∀ b < 4, (wordBytes w)[b]? = some (w.extractLsb' (8 * b) 8)
  | 0, _ => rfl
  | 1, _ => rfl
  | 2, _ => rfl
  | 3, _ => rfl

/-- Settles O8, by induction on the words: the bytes of each are put together again (`word_of_bytes`). -/
theorem byteTransportKeepsWords : Obligations.ByteTransportKeepsWords := by
  refine ⟨fun ws => ?_, fun w b k hb hk => ?_⟩
  · induction ws with
    | nil => rfl
    | cons w ws ih => rw [List.flatMap_cons, bytesToWords_wordBytes, ih]
  · rw [wordBytes_getElem? w b hb, Option.map_some, BitVec.getLsbD_extractLsb']
    simp [hk]

/-- Settles O3: the words of the vectors, decoded. -/
theorem specWordsDecode : Obligations.SpecWordsDecode := by
  unfold Obligations.SpecWordsDecode
  decide

end Sys2Proof
end

section
/-! PROOFS. The assembler (R96): which field values it takes, and the words it gives for them. -/

namespace Sys2Proof.Machine

/-! ### The operands of a line -/

theorem asmVoice_of_le {ch : Nat} (h : ch ≤ 7) : asmVoice ch = some ⟨ch, Nat.lt_succ_of_le h⟩ :=
  dif_pos (Nat.lt_succ_of_le h)

theorem asmVoice_of_not_le {ch : Nat} (h : ¬ ch ≤ 7) : asmVoice ch = none := dif_neg (by omega)

theorem asmField_of_lt {w n : Nat} (h : n < 2 ^ w) : asmField w n = some (BitVec.ofNat w n) := if_pos h

theorem asmField_of_not_lt {w n : Nat} (h : ¬ n < 2 ^ w) : asmField w n = none := if_neg h

theorem asmFlag_of_le {m : Nat} (h : m ≤ 1) : asmFlag m = some (m == 1) := by
  obtain rfl | rfl := Nat.le_one_iff_eq_zero_or_eq_one.1 h <;> rfl

theorem asmFlag_of_not_le {m : Nat} (h : ¬ m ≤ 1) : asmFlag m = none := by
  rw [asmFlag, if_neg (by omega), if_neg (by omega)]

theorem mapM_asmSample (xs : List Int) :
    xs.mapM asmSample = if ∀ x ∈ xs, -32768 ≤ x ∧ x ≤ 32767 then some (xs.map (BitVec.ofInt 16)) else none := by
  induction xs with
  | nil => rfl
  | cons x xs ih =>
    rw [List.mapM_cons, ih, asmSample]
    simp only [List.forall_mem_cons]
    by_cases hx : -32768 ≤ x ∧ x ≤ 32767
    · by_cases hxs : ∀ x ∈ xs, -32768 ≤ x ∧ x ≤ 32767
      · rw [if_pos hx, if_pos hxs, if_pos ⟨hx, hxs⟩]; rfl
      · rw [if_pos hx, if_neg hxs, if_neg (hxs ·.2)]; rfl
    · simp only [hx, if_false, false_and]; rfl

theorem asmSamples_eq (xs : List Int) :
    asmSamples xs = if xs.length ≤ 65535 ∧ ∀ x ∈ xs, -32768 ≤ x ∧ x ≤ 32767 then some (xs.map (BitVec.ofInt 16))
      else none := by
  rw [asmSamples, mapM_asmSample, ite_and]

/-! ### The words of the fields -/

theorem setWidth_ofNat_of_lt {w n : Nat} (h : n < 2 ^ w) : (BitVec.ofNat w n).setWidth 32 = BitVec.ofNat 32 n := by
  apply BitVec.eq_of_toNat_eq
  rw [BitVec.toNat_setWidth, BitVec.toNat_ofNat, BitVec.toNat_ofNat, Nat.mod_eq_of_lt h]

theorem ofBool_beq_one {m : Nat} (h : m ≤ 1) : (BitVec.ofBool (m == 1)).setWidth 32 = BitVec.ofNat 32 m := by
  obtain rfl | rfl := Nat.le_one_iff_eq_zero_or_eq_one.1 h <;> rfl

/-- A concatenation puts its upper part above its lower part. -/
theorem setWidth_append_eq_or {n m : Nat} (k : Nat) (x : BitVec n) (y : BitVec m) :
    (x ++ y).setWidth k = x.setWidth k <<< m ||| y.setWidth k := by
  ext i hi
  rw [BitVec.getElem_setWidth, BitVec.getLsbD_append, BitVec.getElem_or, BitVec.getElem_shiftLeft,
    BitVec.getElem_setWidth]
  by_cases h : i < m
  · simp [h]
  · simp [h, BitVec.getLsbD_of_ge y i (by omega), BitVec.getElem_setWidth]

/-- The channel register word from its fields, each shifted to its place (R85). -/
theorem channelWord_zero_eq_or (wave : BitVec 3) (gain : BitVec 4) (freq : BitVec 20) :
    channelWord 0#5 wave gain freq = wave.setWidth 32 <<< 24 ||| gain.setWidth 32 <<< 20 ||| freq.setWidth 32 := by
  have h : (0#5 ++ wave ++ gain ++ freq : BitVec 32).setWidth 32 = _ := setWidth_append_eq_or _ _ _
  rw [BitVec.setWidth_eq, setWidth_append_eq_or, setWidth_append_eq_or, BitVec.setWidth_zero, BitVec.zero_shiftLeft,
    BitVec.zero_or, BitVec.shiftLeft_or_distrib, ← BitVec.shiftLeft_add] at h
  exact h

theorem extractLsb'_low_ofNat (n : Nat) : (BitVec.ofNat 64 n).extractLsb' 0 32 = BitVec.ofNat 32 n := by
  apply BitVec.eq_of_toNat_eq
  simp only [BitVec.extractLsb'_toNat, BitVec.toNat_ofNat, Nat.shiftRight_zero]
  omega

theorem extractLsb'_high_ofNat {n : Nat} (h : n < 2 ^ 64) :
    (BitVec.ofNat 64 n).extractLsb' 32 32 = BitVec.ofNat 32 (n / 2 ^ 32) := by
  apply BitVec.eq_of_toNat_eq
  simp only [BitVec.extractLsb'_toNat, BitVec.toNat_ofNat, Nat.shiftRight_eq_div_pow, Nat.mod_eq_of_lt h]

/-! ### The lines with operands -/

theorem encode_assemble_chWrite (ch wave gain freq : Nat) : (assemble (.chWrite ch wave gain freq)).map encode =
    if ch ≤ 7 ∧ wave ≤ 7 ∧ gain ≤ 15 ∧ freq < 2 ^ 20 then
      some [0x01000000#32 ||| BitVec.ofNat 32 ch <<< 16,
        BitVec.ofNat 32 wave <<< 24 ||| BitVec.ofNat 32 gain <<< 20 ||| BitVec.ofNat 32 freq]
    else none := by
  split_ifs with h
  · obtain ⟨hch, hwave, hgain, hfreq⟩ := h
    have hwave : wave < 2 ^ 3 := by omega
    have hgain : gain < 2 ^ 4 := by omega
    rw [assemble, asmVoice_of_le hch, asmField_of_lt hwave, asmField_of_lt hgain, asmField_of_lt hfreq,
      ← setWidth_ofNat_of_lt hwave, ← setWidth_ofNat_of_lt hgain, ← setWidth_ofNat_of_lt hfreq,
      ← channelWord_zero_eq_or]
    rfl
  · by_cases hch : ch ≤ 7
    · by_cases hwave : wave < 2 ^ 3
      · by_cases hgain : gain < 2 ^ 4
        · have hfreq : ¬ freq < 2 ^ 20 := fun hfreq => h ⟨hch, by omega, by omega, hfreq⟩
          simp [assemble, asmField_of_not_lt hfreq]
        · simp [assemble, asmField_of_not_lt hgain]
      · simp [assemble, asmField_of_not_lt hwave]
    · simp [assemble, asmVoice_of_not_le hch]

theorem encode_assemble_voiceMute (ch m : Nat) : (assemble (.voiceMute ch m)).map encode =
    if ch ≤ 7 ∧ m ≤ 1 then some [0x02000000#32 ||| BitVec.ofNat 32 ch <<< 16 ||| BitVec.ofNat 32 m] else none := by
  split_ifs with h
  · obtain ⟨hch, hm⟩ := h
    rw [assemble, asmVoice_of_le hch, asmFlag_of_le hm, BitVec.or_assoc, ← ofBool_beq_one hm]
    rfl
  · by_cases hch : ch ≤ 7
    · have hm : ¬ m ≤ 1 := fun hm => h ⟨hch, hm⟩
      simp [assemble, asmFlag_of_not_le hm]
    · simp [assemble, asmVoice_of_not_le hch]

theorem encode_assemble_mixRead (k : Nat) : (assemble (.mixRead k)).map encode =
    if k ≤ 65535 then some [0x04000000#32 ||| BitVec.ofNat 32 k] else none := by
  split_ifs with h
  · have hk : k < 2 ^ 16 := Nat.lt_succ_of_le h
    rw [assemble, asmField_of_lt hk, ← setWidth_ofNat_of_lt hk]
    rfl
  · have hk : ¬ k < 2 ^ 16 := by omega
    simp [assemble, asmField_of_not_lt hk]

theorem bufOpen_header (cap : BitVec 32) : (Instr.bufOpen cap).header = 0x10000000#32 := BitVec.or_zero

theorem encode_assemble_bufOpen (cap : Nat) : (assemble (.bufOpen cap)).map encode =
    if cap < 2 ^ 32 then some [0x10000000#32, BitVec.ofNat 32 cap] else none := by
  split_ifs with h
  · rw [assemble, asmField_of_lt h, ← bufOpen_header (BitVec.ofNat 32 cap)]
    rfl
  · simp [assemble, asmField_of_not_lt h]

theorem setWidth_ofNat_length {samples : List Int} (h : samples.length ≤ 65535) :
    (BitVec.ofNat 16 (samples.map (BitVec.ofInt 16)).length).setWidth 32 = BitVec.ofNat 32 samples.length := by
  rw [List.length_map, setWidth_ofNat_of_lt (Nat.lt_succ_of_le h)]

theorem encode_assemble_bufWrite (offset : Nat) (samples : List Int) :
    (assemble (.bufWrite offset samples)).map encode =
    if offset < 2 ^ 64 ∧ samples.length ≤ 65535 ∧ ∀ x ∈ samples, -32768 ≤ x ∧ x ≤ 32767 then
      some ((0x11000000#32 ||| BitVec.ofNat 32 samples.length) :: BitVec.ofNat 32 offset ::
        BitVec.ofNat 32 (offset / 2 ^ 32) :: payloadWords (samples.map (BitVec.ofInt 16)) 0)
    else none := by
  split_ifs with h
  · obtain ⟨hoffset, hsamples⟩ := h
    rw [assemble, asmField_of_lt hoffset, asmSamples_eq, if_pos hsamples, ← setWidth_ofNat_length hsamples.1,
      ← extractLsb'_low_ofNat offset, ← extractLsb'_high_ofNat hoffset]
    rfl
  · by_cases hoffset : offset < 2 ^ 64
    · have hsamples : asmSamples samples = none := (asmSamples_eq samples).trans (if_neg (mt (And.intro hoffset) h))
      simp [assemble, hsamples]
    · simp [assemble, asmField_of_not_lt hoffset]

theorem encode_assemble_bufAppend (samples : List Int) : (assemble (.bufAppend samples)).map encode =
    if samples.length ≤ 65535 ∧ ∀ x ∈ samples, -32768 ≤ x ∧ x ≤ 32767 then
      some ((0x12000000#32 ||| BitVec.ofNat 32 samples.length) :: payloadWords (samples.map (BitVec.ofInt 16)) 0)
    else none := by
  rw [assemble, asmSamples_eq]
  split_ifs with hsamples
  · obtain ⟨hlen, -⟩ := hsamples
    rw [← setWidth_ofNat_length hlen]
    rfl
  · rfl

theorem encode_assemble_bufSetVolume (v : Nat) : (assemble (.bufSetVolume v)).map encode =
    if v ≤ 7 then some [0x14000000#32 ||| BitVec.ofNat 32 v] else none := by
  split_ifs with h
  · have hv : v < 2 ^ 3 := Nat.lt_succ_of_le h
    rw [assemble, asmField_of_lt hv, ← setWidth_ofNat_of_lt hv]
    rfl
  · have hv : ¬ v < 2 ^ 3 := by omega
    simp [assemble, asmField_of_not_lt hv]

theorem encode_assemble_bufSetMute (m : Nat) : (assemble (.bufSetMute m)).map encode =
    if m ≤ 1 then some [0x15000000#32 ||| BitVec.ofNat 32 m] else none := by
  split_ifs with h
  · rw [assemble, asmFlag_of_le h, ← ofBool_beq_one h]
    rfl
  · simp [assemble, asmFlag_of_not_le h]

/-- Settles O9: one lemma for each kind of line with operands; the others have one encoding. -/
theorem assemblerRefusesValuesOutOfRange : Obligations.AssemblerRefusesValuesOutOfRange :=
  ⟨encode_assemble_chWrite, encode_assemble_voiceMute, encode_assemble_mixRead, encode_assemble_bufOpen,
    encode_assemble_bufWrite, encode_assemble_bufAppend, encode_assemble_bufSetVolume, encode_assemble_bufSetMute,
    rfl, rfl, rfl, rfl, rfl, rfl, rfl, rfl, rfl⟩

end Sys2Proof.Machine
end

section
/-! PROOFS. Synthesis (41_synth_generate.md): a block is eight runs of VoiceSample, side by side (R130, R148); the
listing (R131 to R139), the ramp's length (R253) and the linear lookup's range (R138). -/

namespace Sys2Proof.Machine

/-! ### The block, one voice at a time (R130) -/

section
variable (c : Config) (rb : PerVoice ChannelRegister) (vm : PerVoice Bool)

/-- Lane `v` of a block is its voice's own run of `n` samples. -/
theorem generateBlock_units_get (n : Nat) (gu : PerVoice GeneratorUnit) (v : Voice) :
    (generateBlock c rb vm n gu).2.get v = voiceAfter c (rb.get v) (vm.get v) n (gu.get v) := by
  induction n generalizing gu with
  | zero => rfl
  | succ n ih => rw [generateBlock_succ, ih, frameUnits_get, voiceAfter]

/-- Sample `k` of a block mixes what the voices put out at sample `k` of their own runs. -/
theorem generateBlock_samples_getElem? {n k : Nat} (hk : k < n) (gu : PerVoice GeneratorUnit) :
    (generateBlock c rb vm n gu).1[k]? =
      some (mixOf c fun v => voiceOutput c (rb.get v) (vm.get v) k (gu.get v)) := by
  induction n generalizing k gu with
  | zero => exact absurd hk k.not_lt_zero
  | succ n ih =>
    rw [generateBlock_succ]
    cases k with
    | zero => rfl
    | succ k =>
      rw [List.getElem?_cons_succ, ih (Nat.lt_of_succ_lt_succ hk)]
      simp only [frameUnits_get]
      rfl

end

/-- Settles O26: the state a GENERATE leaves (`exec_generate_of_producer`), its units and samples one voice at a time
(`generateBlock_units_get`, `generateBlock_samples_getElem?`), and the mix as an integer (O60). -/
theorem generateRunsEveryVoiceThroughTheBlock : Obligations.GenerateRunsEveryVoiceThroughTheBlock := by
  intro s hp
  refine ⟨_, _, exec_generate_of_producer hp, generateBlock_units_get _ _ _ _ _, fun k hk => ?_, fun k hk => ?_⟩
  · intro o
    have hmix : Memory.read (Memory.ofSamples (generateBlock s.cfg s.rb s.vmute s.cfg.blockLen s.gu).1) k =
        mixOf s.cfg o := by
      rw [Memory.read_ofSamples, generateBlock_samples_getElem? s.cfg s.rb s.vmute (n := s.cfg.blockLen) hk]
      rfl
    exact ⟨hmix, hmix ▸ mixAveragesEightVoicesAndSaturates.1 s.cfg o⟩
  · rw [Memory.read_ofSamples, List.getElem?_eq_none (by rwa [generateBlock_length])]
    rfl

/-- Settles O34: a lane is a function of its own register, mute bit, unit and the configuration
(`generateBlock_units_get`). -/
theorem lanesDoNotInterfere : Obligations.LanesDoNotInterfere := by
  intro s s' t t' v hcfg hp hp' hrb hvm hgu h h'
  rw [exec_generate_of_producer hp, Host.Outcome.next.injEq] at h
  rw [exec_generate_of_producer hp', Host.Outcome.next.injEq] at h'
  rw [← h, ← h', State.setBlock_gu, State.setBlock_gu, generateBlock_units_get, generateBlock_units_get, hcfg, hrb, hvm,
    hgu]

/-- Settles O36: on either port the next state of a GENERATE has the old ring, and is computed from the rest of the
state alone. -/
theorem generateNeitherReadsNorWritesTheRing : Obligations.GenerateNeitherReadsNorWritesTheRing := by
  intro s t ring h
  by_cases hp : s.port = .producer
  · rw [exec_generate_of_producer hp, Host.Outcome.next.injEq] at h
    subst h
    exact ⟨rfl, exec_generate_of_producer (s := { s with ring := ring }) hp⟩
  · have hwrong : ∀ u : State, u.port ≠ .producer →
        exec .generate u = .next (u.takeFault .wrongPort Instr.generate.header) := fun u hu => onItsPort_of_ne hu _
    rw [hwrong s hp, Host.Outcome.next.injEq] at h
    subst h
    exact ⟨rfl, hwrong { s with ring := ring } hp⟩

/-! ### MIX_READ (R144) -/

theorem State.respond_of_producer {s : State} (hp : s.port = .producer) (ws : List Word) :
    s.respond ws = { s with producer := { s.producer with output := s.producer.output ++ ws } } := by
  conv_lhs => rw [State.respond, hp]
  rfl

theorem indexOutOfRange_iff (c : Config) (k : BitVec 16) : indexOutOfRange c k = true ↔ c.blockLen ≤ k.toNat :=
  decide_eq_true_iff

theorem exec_mixRead_of_lt {s : State} {k : BitVec 16} (hp : s.port = .producer) (hk : k.toNat < s.cfg.blockLen) :
    exec (.mixRead k) s = .next (s.respond [sext32 (Memory.read s.mix k.toNat)]) := by
  show execMixRead k s = _
  rw [execMixRead, onItsPort_of_eq hp, if_neg (mt (indexOutOfRange_iff _ _).1 hk.not_ge)]

/-- Settles O37: below BLOCK_LEN the sample is the response (`exec_mixRead_of_lt`), on the producer's port. -/
theorem mixReadRespondsWithTheSample : Obligations.MixReadRespondsWithTheSample := by
  intro s k hp hk
  rw [exec_mixRead_of_lt hp hk, State.respond_of_producer hp]
  rfl

/-! ### VoiceSample (R131 to R139) -/

/-- R136 as one test: the register's waveform on a start from silence or on a wrap. -/
theorem nextWave_eq (c : Config) (r : ChannelRegister) (g : GeneratorUnit) :
    nextWave c r g = if g.lwave = none ∨ c.phaseMod ≤ rawPhase c r g then r.wave else g.lwave.getD 0 := by
  cases h : g.lwave with
  | none => rw [nextWave_of_none r h, if_pos (.inl rfl)]
  | some w => simp [nextWave_of_some r h, wraps]

/-- Settles O27: the silent case is `voiceSample_silent`; in the other the listing is the rules R132 to R139 with their
names filled in, the latched waveform by `nextWave_eq`. -/
theorem voiceSampleFollowsTheListing : Obligations.VoiceSampleFollowsTheListing := by
  intro c r m g
  refine ⟨fun h => voiceSample_silent m ((isSilent_iff r g).2 h), fun h => ?_⟩
  rw [voiceSample_sounding m (Bool.eq_false_iff.2 (mt (isSilent_iff r g).1 h)), soundingOut, soundingUnit, nextWave_eq]
  unfold lookup
  cases c.lookup <;> rfl

/-! ### The ramp (R133, R253) -/

/-- One sample takes RAMP_STEP off the distance to the specified gain, as far as there is any. -/
theorem rampGain_distance (c : Config) (cur spec : Nat) :
    (rampGain c cur spec - spec) + (spec - rampGain c cur spec) = (cur - spec) + (spec - cur) - c.rampStep := by
  unfold rampGain
  split_ifs <;> omega

theorem rampGain_iterate_distance (c : Config) (spec k cur : Nat) :
    ((fun g => rampGain c g spec)^[k] cur - spec) + (spec - (fun g => rampGain c g spec)^[k] cur) =
      (cur - spec) + (spec - cur) - k * c.rampStep := by
  induction k generalizing cur with
  | zero => simp
  | succ k ih =>
    rw [Function.iterate_succ_apply, ih, rampGain_distance, Nat.succ_mul, Nat.sub_sub, Nat.add_comm c.rampStep]

/-- Settles O29: after `k` samples the distance left is the first one less `k` ramp steps
(`rampGain_iterate_distance`), and the target is reached where none is left. -/
theorem gainReachesItsTargetWhenTheRampSays : Obligations.GainReachesItsTargetWhenTheRampSays := by
  intro c cur spec k _
  have hleft := rampGain_iterate_distance c spec k cur
  omega

/-! ### The linear lookup (R138) -/

/-- Settles O32: the position is one of the table (`phase < PM`), and the interpolation stays between its samples
(`lookupLinear_between`). -/
theorem linearLookupStaysBetweenItsSamples : Obligations.LinearLookupStaysBetweenItsSamples := by
  intro c w phase drift _ hphase hdrift
  exact ⟨Nat.div_lt_of_lt_mul (hphase.trans_eq (Nat.mul_comm _ _)), lookupLinear_between c w phase hdrift⟩

end Sys2Proof.Machine
end

section
/-! PROOFS. The state ranges (10_state.md): one lemma for each part of the state that a command can write, the effect of
a command, and the step (R26, R30, R31). -/

namespace Sys2Proof.Machine

/-! ### The GeneratorUnits (R26) -/

theorem GeneratorUnit.idle_inRange {c : Config} (hc : c.wf = true) : GeneratorUnit.idle.InRange c :=
  ⟨phaseMod_pos c, sampleRate_pos hc, Nat.zero_le _, fun _ => rfl⟩

/-- VoiceSample keeps the ranges: the phase and the drift are remainders, the gain moves towards a specified one, and a
voice that sounds has latched a waveform. -/
theorem voiceSample_inRange {c : Config} (hc : c.wf = true) (r : ChannelRegister) (m : Bool) {g : GeneratorUnit}
    (hg : g.InRange c) : (voiceSample c r m g).2.InRange c := by
  cases h : isSilent r g with
  | true =>
    rw [voiceSample_silent m h]
    exact GeneratorUnit.idle_inRange hc
  | false =>
    obtain ⟨-, -, hcur, -⟩ := hg
    rw [voiceSample_sounding m h]
    exact ⟨nextPhase_lt c r g, nextDrift_lt c r g (sampleRate_pos hc), rampGain_le c hcur (specGain_le c r m),
      fun hnone => absurd hnone (Option.some_ne_none _)⟩

theorem voiceAfter_inRange {c : Config} (hc : c.wf = true) (r : ChannelRegister) (m : Bool) (n : Nat)
    {g : GeneratorUnit} (hg : g.InRange c) : (voiceAfter c r m n g).InRange c := by
  induction n generalizing g with
  | zero => exact hg
  | succ n ih => exact ih (voiceSample_inRange hc r m hg)

/-! ### The sample spaces (R30, R31) -/

theorem Memory.below_nil (n : Nat) : Memory.Below n [] := ⟨rfl, by simp⟩

theorem Memory.ofSamples_below (xs : List Sample) : Memory.Below xs.length (Memory.ofSamples xs) := by
  refine ⟨Memory.ofSamples_wf xs, fun cell hcell => ?_⟩
  have hbounds := Memory.ofSamplesFrom_bounds 0 xs cell hcell
  omega

theorem Memory.storeWrapped_keeps_below {cap : Nat} (hcap : 0 < cap) (b : Nat) (xs : List Sample) {m : Memory}
    (hm : Memory.Below cap m) : Memory.Below cap (Memory.storeWrapped cap b 0 xs m) := by
  obtain ⟨hwf, hbelow⟩ := hm
  exact ⟨Memory.storeWrapped_wf cap b 0 xs m hwf, Memory.storeWrapped_below cap b 0 hcap xs m hbelow⟩

/-! ### The ring (R30) -/

theorem Ring.inRange_iff_of_open {c : Config} {r : Ring} (ho : r.isOpen = true) :
    r.InRange c ↔ r.cap ≠ 0#32 ∧ r.cap.toNat ≤ c.capacityMax.toNat ∧ Memory.Below r.cap.toNat r.data := by
  rw [Ring.InRange, if_pos ho]

/-- An update of an open ring that keeps it open, its capacity, and its samples below the capacity. -/
theorem Ring.InRange.update {c : Config} {r r' : Ring} (hr : r.InRange c) (ho : r.isOpen = true)
    (ho' : r'.isOpen = r.isOpen) (hcap : r'.cap = r.cap)
    (hdata : Memory.Below r.cap.toNat r.data → Memory.Below r.cap.toNat r'.data) : r'.InRange c := by
  obtain ⟨hpos, hmax, hbelow⟩ := (Ring.inRange_iff_of_open ho).1 hr
  rw [Ring.inRange_iff_of_open (ho'.trans ho), hcap]
  exact ⟨hpos, hmax, hdata hbelow⟩

theorem Ring.opened_inRange {c : Config} {cap : BitVec 32} (hpos : cap ≠ 0#32)
    (hmax : cap.toNat ≤ c.capacityMax.toNat) : (Ring.opened cap).InRange c :=
  (Ring.inRange_iff_of_open rfl).2 ⟨hpos, hmax, Memory.below_nil _⟩

theorem Ring.stored_inRange {c : Config} {r : Ring} (hr : r.InRange c) (ho : r.isOpen = true) (hc : r.cap ≠ 0#32)
    (b : Nat) (samples : List Sample) : (r.stored b samples).InRange c :=
  hr.update ho rfl rfl (Memory.storeWrapped_keeps_below (Ring.cap_toNat_pos hc) b samples)

theorem Ring.cap_ne_zero_of_inRange {c : Config} {r : Ring} (hr : r.InRange c) (ho : r.isOpen = true) :
    r.cap ≠ 0#32 :=
  ((Ring.inRange_iff_of_open ho).1 hr).1

/-! ### The state -/

/-- The ranges speak of the configuration, GU, MIX and RING only. -/
theorem State.Inv.of_eq {s t : State} (h : s.Inv) (hcfg : t.cfg = s.cfg) (hgu : t.gu = s.gu) (hmix : t.mix = s.mix)
    (hring : t.ring = s.ring) : t.Inv := by
  unfold State.Inv
  rw [hcfg, hgu, hmix, hring]
  exact h

theorem State.Inv.takeFault {s : State} (h : s.Inv) (code : FaultCode) (header : Word) :
    (s.takeFault code header).Inv :=
  h.of_eq rfl rfl rfl rfl

theorem State.Inv.respond {s : State} (h : s.Inv) (ws : List Word) : (s.respond ws).Inv :=
  h.of_eq (State.respond_cfg s ws) (State.respond_gu s ws) (State.respond_mix s ws) (State.respond_ring s ws)

theorem State.Inv.setRing {s : State} (h : s.Inv) {r : Ring} (hr : s.ring.InRange s.cfg → r.InRange s.cfg) :
    (s.setRing r).Inv := by
  obtain ⟨hcfg, hgu, hmix, hring⟩ := h
  exact ⟨hcfg, hgu, hmix, hr hring⟩

theorem State.Inv.generated {s : State} (h : s.Inv) :
    (s.setBlock (generateBlock s.cfg s.rb s.vmute s.cfg.blockLen s.gu).2
      (Memory.ofSamples (generateBlock s.cfg s.rb s.vmute s.cfg.blockLen s.gu).1)).Inv := by
  obtain ⟨hcfg, hgu, -, hring⟩ := h
  have hmix := Memory.ofSamples_below (generateBlock s.cfg s.rb s.vmute s.cfg.blockLen s.gu).1
  rw [generateBlock_length] at hmix
  refine ⟨hcfg, fun v => ?_, hmix, hring⟩
  rw [State.setBlock_gu, generateBlock_units_get]
  exact voiceAfter_inRange hcfg _ _ _ (hgu v)

/-- The effect of every command keeps the ranges. -/
theorem CommandEffect.inv {s t : State} {i : Instr} (h : CommandEffect s t i) (hs : s.Inv) : t.Inv := by
  cases i
  case chWrite | voiceMute => subst h; exact hs.of_eq rfl rfl rfl rfl
  case generate => subst h; exact hs.generated
  case mixRead => obtain ⟨-, rfl⟩ := h; exact hs.respond _
  case bufOpen => obtain ⟨⟨hpos, hmax⟩, rfl⟩ := h; exact hs.setRing fun _ => Ring.opened_inRange hpos hmax
  case bufWrite | bufAppend =>
    obtain ⟨ho, hc, -, rfl⟩ := h
    exact hs.setRing fun hr => Ring.stored_inRange hr ho hc _ _
  case bufFillSilent =>
    obtain ⟨ho, rfl⟩ := h
    exact hs.setRing fun hr => hr.update ho rfl rfl fun _ => Memory.below_nil _
  case bufSetVolume | bufSetMute => obtain ⟨ho, rfl⟩ := h; exact hs.setRing fun hr => hr.update ho rfl rfl id
  case readOne =>
    obtain ⟨ho, ⟨-, rfl⟩ | ⟨-, -, -, rfl⟩⟩ := h
    · exact hs.respond _
    · exact (hs.setRing fun hr => hr.update (r' := s.ring.advanced) ho rfl rfl id).respond _
  case callbackDone => obtain ⟨ho, -, rfl⟩ := h; exact hs.setRing fun hr => hr.update ho rfl rfl id
  all_goals
    obtain ⟨-, rfl⟩ := h
    exact hs.respond _

/-- Every command keeps the ranges, whether it takes a fault or has its effect. -/
theorem exec_inv {i : Instr} {s t : State} (h : exec i s = .next t) (hs : s.Inv) : t.Inv := by
  rcases exec_next h with ⟨code, rfl⟩ | ⟨-, heffect⟩
  · exact hs.takeFault _ _
  · exact heffect.inv hs

/-- Taking a port's turn and its words touches nothing the ranges speak of. -/
theorem State.Inv.turn {s : State} (h : s.Inv) (p : Port) (turns : List Port) (ws : List Word) :
    ((s.turnOf p turns).setInput p ws).Inv :=
  h.of_eq (by simp) (by simp) (by simp) (by simp)

/-- Settles O58: a step changes nothing the ranges speak of, but for the command it executes (`exec_inv`). -/
theorem everyStepKeepsTheStateRanges : Obligations.EveryStepKeepsTheStateRanges := by
  intro s t hs h
  obtain ⟨-, ⟨-, rfl⟩ | ⟨-, -, rfl⟩ | ⟨p, turns, -, -, hturn⟩⟩ := step_cases h
  · exact hs
  · exact hs
  · rcases hturn with ⟨-, rfl⟩ | ⟨hd, ws, e, -, -, rfl⟩ | ⟨i, rest, -, hexec⟩
    · exact hs.of_eq rfl rfl rfl rfl
    · exact (hs.turn p turns ws).takeFault _ _
    · exact exec_inv hexec (hs.turn p turns rest)

theorem Config.default_wf : Config.default.wf = true := by
  rw [Config.wf_iff]
  exact ⟨by decide, by decide, Nat.succ_ne_zero _, Nat.succ_ne_zero _, Nat.succ_ne_zero _, Nat.succ_ne_zero _⟩

theorem State.resetWith_inv {c : Config} (hc : c.wf = true) : (State.resetWith c).Inv := by
  refine ⟨hc, fun v => ?_, Memory.below_nil _, rfl⟩
  have hidle : (State.resetWith c).gu.get v = GeneratorUnit.idle := PerVoice.get_fill _ v
  rw [hidle]
  exact GeneratorUnit.idle_inRange hc

/-- Settles O59: the values of the parameters left open do not matter but for R7, which the defaults keep. -/
theorem resetHasTheStateRanges : Obligations.ResetHasTheStateRanges := State.resetWith_inv Config.default_wf

end Sys2Proof.Machine
end


section
/-! PROOFS. Frames (20_memory.md, R62, R80): what each side of the block leaves to the other, and that commands of the
two sides commute. -/

namespace Sys2Proof.Machine

/-! ### The two sides of the block -/

/-- Settles O53: a fault writes only FAULT, and the effects of the four commands are updates of their own fields. -/
theorem synthCommandsLeaveTheRing : Obligations.SynthCommandsLeaveTheRing := by
  intro i s t hi h
  rcases exec_next h with ⟨code, rfl⟩ | ⟨-, heffect⟩
  · exact ⟨rfl, fun _ => ⟨rfl, rfl⟩, fun _ => rfl, fun _ => rfl⟩
  · cases i
    case chWrite => subst heffect; exact ⟨rfl, fun _ => ⟨rfl, rfl⟩, (absurd rfl ·), fun _ => rfl⟩
    case voiceMute => subst heffect; exact ⟨rfl, fun _ => ⟨rfl, rfl⟩, fun _ => rfl, (absurd rfl ·)⟩
    case generate => subst heffect; exact ⟨rfl, (absurd rfl ·), fun _ => rfl, fun _ => rfl⟩
    case mixRead => obtain ⟨-, rfl⟩ := heffect; simp
    all_goals exact absurd hi (by simp [Instr.opcode])

/-- Settles O54: a fault writes only FAULT, and the effects of the other commands are updates of the ring and
responses. -/
theorem ringCommandsLeaveTheSynthesizer : Obligations.RingCommandsLeaveTheSynthesizer := by
  intro i s t hi h
  rcases exec_next h with ⟨code, rfl⟩ | ⟨-, heffect⟩
  · exact ⟨rfl, rfl, rfl, rfl⟩
  · cases i
    case chWrite | voiceMute | generate | mixRead => exact absurd hi (by simp [Instr.opcode])
    case bufOpen => obtain ⟨-, rfl⟩ := heffect; exact ⟨rfl, rfl, rfl, rfl⟩
    case bufWrite | bufAppend => obtain ⟨-, -, -, rfl⟩ := heffect; exact ⟨rfl, rfl, rfl, rfl⟩
    case readOne => obtain ⟨-, ⟨-, rfl⟩ | ⟨-, -, -, rfl⟩⟩ := heffect <;> simp
    case callbackDone => obtain ⟨-, -, rfl⟩ := heffect; exact ⟨rfl, rfl, rfl, rfl⟩
    all_goals
      obtain ⟨-, rfl⟩ := heffect
      simp

/-! ### Streams, turns and configuration (R37, R80, R89) -/

/-- Nothing of the model's own fields differs but for at most two words sent on the current port. -/
def RespondsOnly (s t : State) : Prop :=
  t.cfg = s.cfg ∧ t.schedule = s.schedule ∧ t.port = s.port ∧ (∀ q, (t.io q).input = (s.io q).input) ∧
    (∀ q, q ≠ s.port → t.io q = s.io q) ∧ ∃ ws, (t.io s.port).output = (s.io s.port).output ++ ws ∧ ws.length ≤ 2

/-- A command that sends nothing. -/
theorem RespondsOnly.of_io_eq {s t : State} (hcfg : t.cfg = s.cfg) (hschedule : t.schedule = s.schedule)
    (hport : t.port = s.port) (hio : ∀ q, t.io q = s.io q) : RespondsOnly s t :=
  ⟨hcfg, hschedule, hport, fun q => by rw [hio], fun q _ => hio q, [], by simp [hio], by simp⟩

theorem respondsOnly_respond (s : State) {ws : List Word} (hws : ws.length ≤ 2) : RespondsOnly s (s.respond ws) :=
  ⟨by simp, by simp, by simp, by simp, fun _ hq => s.respond_io_other ws hq, ws, by simp, hws⟩

theorem respondsOnly_setRing (s : State) (r : Ring) : RespondsOnly s (s.setRing r) :=
  .of_io_eq rfl rfl rfl (State.setRing_io s r)

theorem respondsOnly_setRing_respond (s : State) (r : Ring) {ws : List Word} (hws : ws.length ≤ 2) :
    RespondsOnly s ((s.setRing r).respond ws) := by
  simpa [RespondsOnly] using respondsOnly_respond (s.setRing r) hws

theorem CommandEffect.respondsOnly {s t : State} {i : Instr} (h : CommandEffect s t i) : RespondsOnly s t := by
  cases i
  case chWrite | voiceMute | generate => subst h; exact .of_io_eq rfl rfl rfl (by simp)
  case mixRead => obtain ⟨-, rfl⟩ := h; exact respondsOnly_respond s (by simp)
  case bufOpen | bufFillSilent | bufSetVolume | bufSetMute => obtain ⟨-, rfl⟩ := h; exact respondsOnly_setRing s _
  case bufWrite | bufAppend => obtain ⟨-, -, -, rfl⟩ := h; exact respondsOnly_setRing s _
  case readOne =>
    obtain ⟨-, ⟨-, rfl⟩ | ⟨-, -, -, rfl⟩⟩ := h
    · exact respondsOnly_respond s (by simp)
    · exact respondsOnly_setRing_respond s _ (by simp)
  case callbackDone => obtain ⟨-, -, rfl⟩ := h; exact respondsOnly_setRing s _
  all_goals
    obtain ⟨-, rfl⟩ := h
    exact respondsOnly_respond s (by simp [counterWords])

/-- Settles O55: a fault sends nothing, and every effect is one of the shapes above (`CommandEffect.respondsOnly`). -/
theorem commandsRespondOnTheirPortOnly : Obligations.CommandsRespondOnTheirPortOnly := by
  intro i s t h
  rcases exec_next h with ⟨code, rfl⟩ | ⟨-, heffect⟩
  · exact RespondsOnly.of_io_eq rfl rfl rfl (by simp)
  · exact heffect.respondsOnly

/-! ### A change of the other side goes through a command -/

/-- `s` with the synthesizer and the producer's streams of `t`: all a synthesizer command writes. -/
def State.withSynthOf (s t : State) : State :=
  { s with rb := t.rb, vmute := t.vmute, gu := t.gu, mix := t.mix, producer := t.producer }

/-- `s` with the ring and the consumer's streams of `u`: all a consumer command writes. -/
def State.withRingOf (s u : State) : State := { s with ring := u.ring, consumer := u.consumer }

/-- An outcome with its next state, if there is one, changed. -/
def mapNext (f : State → State) : Host.Outcome State Fault Refusal → Host.Outcome State Fault Refusal
  | .next s => .next (f s)
  | .fault r => .fault r
  | .refused r => .refused r

/-- A change of the state that keeps the current port, and which a fault goes through. -/
structure KeepsFaults (f : State → State) : Prop where
  port_eq : ∀ s, (f s).port = s.port
  fault_eq : ∀ s, (f s).fault = s.fault
  takeFault_eq : ∀ s code header, f (s.takeFault code header) = (f s).takeFault code header

theorem keepsFaults_withSynthOf (t : State) : KeepsFaults (State.withSynthOf · t) :=
  ⟨fun _ => rfl, fun _ => rfl, fun _ _ _ => rfl⟩

theorem keepsFaults_withRingOf (u : State) : KeepsFaults (State.withRingOf · u) :=
  ⟨fun _ => rfl, fun _ => rfl, fun _ _ _ => rfl⟩

section
variable {f : State → State} {i : Instr} {s : State} {go go' : Host.Outcome State Fault Refusal}

theorem KeepsFaults.raiseFault (hf : KeepsFaults f) (i : Instr) (s : State) (code : FaultCode) :
    mapNext f (raiseFault i s code) = Machine.raiseFault i (f s) code :=
  congrArg Host.Outcome.next (hf.takeFault_eq s code i.header)

theorem KeepsFaults.onItsPort (hf : KeepsFaults f) (hgo : s.port = i.port → mapNext f go = go') :
    mapNext f (onItsPort i s go) = Machine.onItsPort i (f s) go' := by
  unfold Machine.onItsPort
  rw [hf.port_eq]
  split
  · exact hgo ‹_›
  · exact hf.raiseFault i s _

theorem KeepsFaults.whenUnreserved (hf : KeepsFaults f) (b : Bool) (hgo : mapNext f go = go') :
    mapNext f (whenUnreserved i s b go) = Machine.whenUnreserved i (f s) b go' := by
  cases b
  · exact hgo
  · exact hf.raiseFault i s _

theorem KeepsFaults.whenOpen (hf : KeepsFaults f) (hring : (f s).ring = s.ring) (hgo : mapNext f go = go') :
    mapNext f (whenOpen i s go) = Machine.whenOpen i (f s) go' := by
  unfold Machine.whenOpen
  rw [hring]
  split
  · exact hgo
  · exact hf.raiseFault i s _

end

/-- A synthesizer command neither reads nor writes the ring and the consumer's streams. -/
theorem exec_synth_withRingOf {i : Instr} (hi : i.opcode ∈ [Opcode.chWrite, .voiceMute, .generate, .mixRead])
    (s u : State) : exec i (s.withRingOf u) = mapNext (State.withRingOf · u) (exec i s) := by
  have hf := keepsFaults_withRingOf u
  symm
  cases i
  case chWrite => exact hf.onItsPort fun _ => hf.whenUnreserved _ rfl
  case voiceMute | generate => exact hf.onItsPort fun _ => rfl
  case mixRead k =>
    refine hf.onItsPort fun (hp : s.port = .producer) => ?_
    have hrespond : ∀ ws, (s.respond ws).withRingOf u = (s.withRingOf u).respond ws := fun ws => by
      rw [State.respond_of_producer hp, State.respond_of_producer (s := s.withRingOf u) hp]
      rfl
    have hcfg : (s.withRingOf u).cfg = s.cfg := rfl
    rw [hcfg]
    split
    · exact hf.raiseFault _ s _
    · exact congrArg Host.Outcome.next (hrespond _)
  all_goals exact absurd hi (by simp [Instr.opcode])

/-- A consumer command neither reads nor writes the synthesizer and the producer's streams. -/
theorem exec_consumer_withSynthOf {j : Instr} (hj : j.port = .consumer) (s t : State) :
    exec j (s.withSynthOf t) = mapNext (State.withSynthOf · t) (exec j s) := by
  have hf := keepsFaults_withSynthOf t
  symm
  cases j
  case readOne =>
    refine hf.onItsPort fun (hp : s.port = .consumer) => hf.whenOpen rfl ?_
    have hring : (s.withSynthOf t).ring = s.ring := rfl
    rw [hring]
    split
    · rw [State.respond_of_consumer (s := s.withSynthOf t) hp, State.respond_of_consumer hp]
      rfl
    · split
      · exact hf.raiseFault _ s _
      · cases s.ring.index s.ring.current.toNat with
        | none => rfl
        | some k =>
          simp only
          rw [State.respond_of_consumer (s := (s.withSynthOf t).setRing s.ring.advanced) hp,
            State.respond_of_consumer (s := s.setRing s.ring.advanced) hp]
          rfl
  case callbackDone =>
    refine hf.onItsPort fun _ => hf.whenOpen rfl ?_
    have hring : (s.withSynthOf t).ring = s.ring := rfl
    rw [hring]
    split
    · exact hf.raiseFault _ s _
    · rfl
  all_goals cases hj

/-! ### Commands taken one after another (R61, R62) -/

/-- A run is its first command, and then the others from the state that leaves. -/
theorem runCommands_cons_eq_bind (i : Instr) (is : List Instr) (s : State) :
    runCommands (i :: is) s = (runCommands [i] s).bind (runCommands is) := by
  simp only [runCommands]
  cases exec i { s with port := i.port } with
  | next t => cases h : t.halted <;> simp [h]
  | fault r => rfl
  | refused r => rfl

/-- A single command that goes through has had its effect, and raised no fault. -/
theorem effect_of_runCommands {i : Instr} {s t : State} (h : runCommands [i] s = some t) :
    t.fault = none ∧ CommandEffect { s with port := i.port } t i := by
  simp only [runCommands] at h
  cases hexec : exec i { s with port := i.port } with
  | next v =>
    rw [hexec] at h
    cases hv : v.halted with
    | true => simp [hv] at h
    | false =>
      simp only [hv, Bool.false_eq_true, if_false, Option.some.injEq] at h
      subst h
      rcases exec_next hexec with ⟨code, rfl⟩ | ⟨-, heffect⟩
      · simp at hv
      · exact ⟨by simpa [State.halted] using hv, heffect⟩
  | fault r => simp [hexec] at h
  | refused r => simp [hexec] at h

/-- A change that goes through a command goes through its run. -/
theorem runCommands_of_exec_mapNext {f : State → State} {i : Instr} {s : State} (hf : KeepsFaults f)
    (hport : { f s with port := i.port } = f { s with port := i.port })
    (hexec : exec i (f { s with port := i.port }) = mapNext f (exec i { s with port := i.port })) :
    runCommands [i] (f s) = (runCommands [i] s).map f := by
  simp only [runCommands, hport, hexec]
  cases exec i { s with port := i.port } with
  | next t =>
    have hhalted : (f t).halted = t.halted := by rw [State.halted, hf.fault_eq, State.halted]
    simp only [mapNext, hhalted]
    split <;> rfl
  | fault r => rfl
  | refused r => rfl

theorem port_of_synth {i : Instr} (hi : i.opcode ∈ [Opcode.chWrite, .voiceMute, .generate, .mixRead]) :
    i.port = .producer := by
  cases i
  case chWrite | voiceMute | generate | mixRead => rfl
  all_goals exact absurd hi (by simp [Instr.opcode])

/-- A synthesizer command writes its own side only. -/
theorem eq_withSynthOf_of_runCommands {i : Instr} {s t : State}
    (hi : i.opcode ∈ [Opcode.chWrite, .voiceMute, .generate, .mixRead]) (h : runCommands [i] s = some t) :
    t = ({ s with port := .producer } : State).withSynthOf t := by
  obtain ⟨-, heffect⟩ := effect_of_runCommands h
  rw [port_of_synth hi] at heffect
  cases i
  case chWrite | voiceMute | generate => subst heffect; rfl
  case mixRead =>
    obtain ⟨-, rfl⟩ := heffect
    rw [State.respond_of_producer rfl]
    rfl
  all_goals exact absurd hi (by simp [Instr.opcode])

/-- A consumer command writes its own side only. -/
theorem eq_withRingOf_of_runCommands {j : Instr} {s u : State} (hj : j.port = .consumer)
    (h : runCommands [j] s = some u) : u = ({ s with port := .consumer } : State).withRingOf u := by
  obtain ⟨-, heffect⟩ := effect_of_runCommands h
  rw [hj] at heffect
  cases j
  case readOne =>
    obtain ⟨-, ⟨-, rfl⟩ | ⟨-, -, -, rfl⟩⟩ := heffect
    · rw [State.respond_of_consumer rfl]
      rfl
    · rw [State.respond_of_consumer rfl]
      rfl
  case callbackDone => obtain ⟨-, -, rfl⟩ := heffect; rfl
  all_goals cases hj

/-- Settles O56: each command writes one side of the block (`eq_withSynthOf_of_runCommands`,
`eq_withRingOf_of_runCommands`), and a change of that side goes through the other (`exec_consumer_withSynthOf`,
`exec_synth_withRingOf`); so in either order both sides are changed as by each command alone, or neither order is
without a fault. -/
theorem synthAndConsumerCommandsCommute : Obligations.SynthAndConsumerCommandsCommute := by
  intro i j s hi hj _
  have hsynth : ∀ u, runCommands [i] (s.withRingOf u) = (runCommands [i] s).map (State.withRingOf · u) := fun u =>
    runCommands_of_exec_mapNext (keepsFaults_withRingOf u) rfl (exec_synth_withRingOf hi _ u)
  have hconsumer : ∀ t, runCommands [j] (s.withSynthOf t) = (runCommands [j] s).map (State.withSynthOf · t) := fun t =>
    runCommands_of_exec_mapNext (keepsFaults_withSynthOf t) rfl (exec_consumer_withSynthOf hj _ t)
  have hij : ∀ t, runCommands [i] s = some t → runCommands [j] t = (runCommands [j] s).map (State.withSynthOf · t) := by
    intro t ht
    rw [← hconsumer, eq_withSynthOf_of_runCommands hi ht]
    rfl
  have hji : ∀ u, runCommands [j] s = some u → runCommands [i] u = (runCommands [i] s).map (State.withRingOf · u) := by
    intro u hu
    rw [← hsynth, eq_withRingOf_of_runCommands hj hu]
    rfl
  rw [runCommands_cons_eq_bind i, runCommands_cons_eq_bind j]
  cases ht : runCommands [i] s with
  | none =>
    cases hu : runCommands [j] s with
    | none => rfl
    | some u => rw [Option.bind_none, Option.bind_some, hji u hu, ht]; rfl
  | some t =>
    cases hu : runCommands [j] s with
    | none => rw [Option.bind_none, Option.bind_some, hij t ht, hu]; rfl
    | some u =>
      rw [Option.bind_some, Option.bind_some, hij t ht, hji u hu, ht, hu, eq_withSynthOf_of_runCommands hi ht,
        eq_withRingOf_of_runCommands hj hu]
      rfl

end Sys2Proof.Machine
end

section
/-! PROOFS. One step (R60 to R64): what it does with a turn, and that it always answers a next state. -/

namespace Sys2Proof.Machine

theorem State.halted_eq_false {s : State} (hf : s.fault = none) : s.halted = false := by
  rw [State.halted, hf]
  rfl

/-- What a step answers for what it finds to do. -/
def Arrival.outcome : Arrival → Host.Outcome State Fault Refusal
  | .idle t => .next t
  | .raised t => .next t
  | .command i t => exec i t

theorem step_of_turn {s : State} {p : Port} {turns : List Port} (hwf : s.cfg.wf = true) (hf : s.fault = none)
    (hturn : s.schedule = p :: turns) : step s = (takeTurn s p turns).outcome := by
  simp only [step, arrive, hwf, State.halted_eq_false hf, hturn, if_true, Bool.false_eq_true, if_false]
  cases takeTurn s p turns <;> rfl

theorem step_of_command {s : State} {p : Port} {turns : List Port} {i : Instr} {rest : List Word}
    (hwf : s.cfg.wf = true) (hf : s.fault = none) (hturn : s.schedule = p :: turns)
    (hd : decode (s.io p).input = .ok (i, rest)) : step s = exec i ((s.turnOf p turns).setInput p rest) := by
  rw [step_of_turn hwf hf hturn]
  rcases takeTurn_cases s p turns with ⟨hin, -⟩ | ⟨h, ws, e, hin, herr, -⟩ | ⟨j, left, hok, htake⟩
  · rw [hin] at hd; cases hd
  · rw [hin, herr] at hd; cases hd
  · rw [hok] at hd
    cases hd
    rw [htake, Arrival.outcome]

theorem step_of_decode_error {s : State} {p : Port} {turns : List Port} {h : Word} {ws : List Word} {e : DecodeError}
    (hwf : s.cfg.wf = true) (hf : s.fault = none) (hturn : s.schedule = p :: turns) (hin : (s.io p).input = h :: ws)
    (hd : decode (h :: ws) = .error e) :
    step s = .next (((s.turnOf p turns).setInput p ws).takeFault (arrivalFault p h) h) := by
  rw [step_of_turn hwf hf hturn, takeTurn, hin]
  simp only [hd, Arrival.outcome]

/-- Settles O10: the state a command runs on (`step_of_command`), field by field. -/
theorem stepRunsTheDecodedCommand : Obligations.StepRunsTheDecodedCommand := by
  intro s p turns i rest hwf hf hturn hd
  refine ⟨_, step_of_command hwf hf hturn hd, ?_, ?_, State.setInput_input _ p rest, ?_, fun q hq => ?_, ?_, ?_, ?_, ?_,
    ?_, ?_, ?_⟩
  case refine_4 => exact (State.setIO_io_other _ hq _).trans (State.turnOf_io s p turns q)
  all_goals simp [hf]

/-- The fault of words that make no command leaves every output as it was, and changes nothing of the block but FAULT
(R200, R203). -/
theorem step_raises_arrivalFault {s : State} {p : Port} {turns : List Port} {h : Word} {ws : List Word}
    {e : DecodeError} (hwf : s.cfg.wf = true) (hf : s.fault = none) (hturn : s.schedule = p :: turns) (hin : (s.io p).input = h :: ws)
    (hd : decode (h :: ws) = .error e) :
    ∃ t, step s = .next t ∧ t.fault = some ⟨arrivalFault p h, p, h⟩ ∧ t.rb = s.rb ∧ t.vmute = s.vmute ∧ t.gu = s.gu ∧
      t.mix = s.mix ∧ t.ring = s.ring ∧ t.cfg = s.cfg ∧ ∀ q, (t.io q).output = (s.io q).output :=
  ⟨_, step_of_decode_error hwf hf hturn hin hd, by simp, by simp, by simp, by simp, by simp, by simp, by simp, by simp⟩

/-- Settles O11: a header that selects no row decodes to no command, and its fault is ILLEGAL_COMMAND. -/
theorem stepRaisesIllegalCommand : Obligations.StepRaisesIllegalCommand := by
  intro s p turns h ws hwf hf hturn hin hnone
  have hd : decode (h :: ws) = .error .illegalCommand := by simp [decode, hnone]
  have hfault : arrivalFault p h = .illegalCommand := by simp [arrivalFault, hnone]
  exact hfault ▸ step_raises_arrivalFault hwf hf hturn hin hd

/-- A command's header that does not begin a complete command of port `p` raises TRUNCATED, or WRONG_PORT first. -/
theorem arrivalFault_header (p : Port) (i : Instr) :
    arrivalFault p i.header = if i.port = p then .truncated else .wrongPort := by
  rw [arrivalFault, header_selects_row]
  rfl

/-- Settles O12: no proper initial part of a command decodes (`decode_take_encode`), and its first word is the header. -/
theorem stepRaisesTruncatedAfterWrongPort : Obligations.StepRaisesTruncatedAfterWrongPort := by
  intro s p turns i k hwf hf hturn hi hk hlt hin
  obtain ⟨e, hd⟩ := decode_take_encode hi hk hlt
  obtain ⟨n, rfl⟩ := Nat.exists_eq_succ_of_ne_zero hk.ne'
  rw [← arrivalFault_header]
  exact step_raises_arrivalFault hwf hf hturn hin hd

/-- Settles O14: with no turn left, and in the turn of a port with no word, the state the step leaves is written out in
`arrive` and `takeTurn`. -/
theorem emptyTurnsAreIdle : Obligations.EmptyTurnsAreIdle := by
  refine ⟨fun s hwf hf hturn => ?_, fun s p turns hwf hf hturn hin => ?_⟩
  · simp [step, arrive, hwf, State.halted_eq_false hf, hturn]
  · rw [step_of_turn hwf hf hturn, takeTurn, hin, Arrival.outcome]

/-- A command answers a next state where the ring is in its range: an open ring has an index for every position. -/
theorem exec_completes_of_inv {s : State} (hs : s.Inv) (i : Instr) : ∃ t, exec i s = .next t := by
  obtain ⟨-, -, -, hring⟩ := hs
  exact exec_completes i s (Ring.cap_ne_zero_of_inRange hring)

/-- Settles O15: the step executes the command (`step_of_command`), which answers a next state
(`exec_completes_of_inv`) and takes no more words or turns (O55). -/
theorem anyPortsCommandCanBeTakenNext : Obligations.AnyPortsCommandCanBeTakenNext := by
  intro s p turns i rest hs hf hd
  have hcfg : s.cfg.wf = true := hs.1
  have hrun : step { s with schedule := p :: turns } =
      exec i (({ s with schedule := p :: turns } : State).turnOf p turns |>.setInput p rest) :=
    step_of_command hcfg hf rfl (by cases p <;> exact hd)
  have hinv : (({ s with schedule := p :: turns } : State).turnOf p turns |>.setInput p rest).Inv :=
    (hs.of_eq rfl rfl rfl rfl).turn p turns rest
  obtain ⟨t, ht⟩ := exec_completes_of_inv hinv i
  obtain ⟨-, hschedule, -, hinput, -⟩ := commandsRespondOnTheirPortOnly _ _ _ ht
  exact ⟨t, hrun.trans ht, (hinput p).trans (by simp), hschedule.trans (by simp)⟩

/-- Settles O16: the step of a halted block and the idle ones answer, and so does a command
(`exec_completes_of_inv`). -/
theorem stepNeverStops : Obligations.StepNeverStops := by
  intro s hs
  have hcfg : s.cfg.wf = true := hs.1
  cases hf : s.fault with
  | some r => exact ⟨s, step_of_halted hcfg (by simp [State.halted, hf])⟩
  | none =>
    cases hturn : s.schedule with
    | nil => exact ⟨s, emptyTurnsAreIdle.1 s hcfg hf hturn⟩
    | cons p turns =>
      rw [step_of_turn hcfg hf hturn]
      rcases takeTurn_cases s p turns with ⟨-, htake⟩ | ⟨h, ws, e, -, -, htake⟩ | ⟨i, rest, -, htake⟩
      · rw [htake]; exact ⟨_, rfl⟩
      · rw [htake]; exact ⟨_, rfl⟩
      · rw [htake]; exact exec_completes_of_inv (hs.turn p turns rest) i

end Sys2Proof.Machine
end

section
/-! PROOFS. The faults of commands (60_exceptions.md, R201, R203), one lemma for each check of a command. -/

namespace Sys2Proof.Machine

theorem State.takeFault_of_port {s : State} {p : Port} (hp : s.port = p) (code : FaultCode) (header : Word) :
    s.takeFault code header = { s with fault := some ⟨code, p, header⟩ } := by
  subst hp
  rfl

/-! ### WRONG_PORT (R207) -/

/-- Settles O18: every command's first check is that of its port. -/
theorem everyCommandOnTheOtherPortRaisesWrongPort : Obligations.EveryCommandOnTheOtherPortRaisesWrongPort := by
  intro i s hp
  cases i with
  | _ => exact onItsPort_of_ne hp _

/-! ### BUF_WRITE and BUF_APPEND, check by check (R180, R182) -/

theorem payloadReserved_eq_true {samples : List Sample} {pad : BitVec 16} (hodd : samples.length % 2 = 1)
    (hpad : pad ≠ 0#16) : payloadReserved samples pad = true := by
  simp [payloadReserved, hodd, hpad]

theorem payloadReserved_eq_false {samples : List Sample} {pad : BitVec 16} (h : samples.length % 2 = 0 ∨ pad = 0#16) :
    payloadReserved samples pad = false := by
  rcases h with heven | hpad
  · simp [payloadReserved, heven]
  · simp [payloadReserved, hpad]

/-- What the two write commands have in common: the checks of R203 in order, then the store at a position. -/
def storeCommand (i : Instr) (s : State) (offset : Nat) (samples : List Sample) (pad : BitVec 16) :
    Host.Outcome State Fault Refusal :=
  onItsPort i s <| whenUnreserved i s (payloadReserved samples pad) <| whenOpen i s <| storeAt i s offset samples

theorem exec_bufWrite (offset : BitVec 64) (samples : List Sample) (pad : BitVec 16) (s : State) :
    exec (.bufWrite offset samples pad) s =
      storeCommand (.bufWrite offset samples pad) s offset.toNat samples pad := rfl

theorem exec_bufAppend (samples : List Sample) (pad : BitVec 16) (s : State) :
    exec (.bufAppend samples pad) s = storeCommand (.bufAppend samples pad) s s.ring.tail samples pad := rfl

section
variable {i : Instr} {s : State} {samples : List Sample} {pad : BitVec 16} (offset : Nat)

theorem storeCommand_of_reserved (hp : s.port = i.port) (hpad : payloadReserved samples pad = true) :
    storeCommand i s offset samples pad = .next (s.takeFault .reservedOperand i.header) := by
  rw [storeCommand, onItsPort_of_eq hp, hpad, whenUnreserved_true]

theorem storeCommand_of_closed (hp : s.port = i.port) (hpad : payloadReserved samples pad = false)
    (ho : s.ring.isOpen = false) : storeCommand i s offset samples pad = .next (s.takeFault .notOpen i.header) := by
  rw [storeCommand, onItsPort_of_eq hp, hpad, whenUnreserved_false, whenOpen_of_closed ho]

theorem storeCommand_of_open (hp : s.port = i.port) (hpad : payloadReserved samples pad = false)
    (ho : s.ring.isOpen = true) : storeCommand i s offset samples pad = storeAt i s offset samples := by
  rw [storeCommand, onItsPort_of_eq hp, hpad, whenUnreserved_false, whenOpen_of_open ho]

theorem storeAt_of_overflow (h : counterMax < s.ring.remain.toNat + samples.length) :
    storeAt i s offset samples = .next (s.takeFault .counterOverflow i.header) := by
  rw [storeAt, if_pos ((counterOverflows_iff _ _).2 h), raiseFault_eq]

end

/-- Settles O19: the check of the reserved bits comes before that of the ring. -/
theorem reservedOperandBitsRaise : Obligations.ReservedOperandBitsRaise := by
  refine ⟨fun s ch reserved wave gain freq hp hreserved => ?_, fun s offset samples pad hp hodd hpad => ?_⟩
  · have hbits : (reserved != 0#5) = true := bne_iff_ne.2 hreserved
    show execChWrite ch reserved wave gain freq s = _
    rw [execChWrite, onItsPort_of_eq hp, hbits, whenUnreserved_true, State.takeFault_of_port hp]
  · have hbits := payloadReserved_eq_true hodd hpad
    rw [exec_bufWrite, exec_bufAppend, storeCommand_of_reserved _ hp hbits, storeCommand_of_reserved _ hp hbits,
      State.takeFault_of_port hp, State.takeFault_of_port hp]
    exact ⟨rfl, rfl⟩

/-! ### NOT_OPEN (R201) -/

/-- Settles O20: of the ring commands only the two writes have an earlier check, which the hypotheses let pass. -/
theorem closedRingRaisesNotOpen : Obligations.ClosedRingRaisesNotOpen := by
  intro i s hp ho hi hwrite happend
  cases i
  case chWrite | voiceMute | generate | mixRead | bufOpen => exact absurd hi (by simp [Instr.opcode])
  case bufWrite => exact storeCommand_of_closed _ hp (payloadReserved_eq_false (hwrite _ _ _ rfl)) ho
  case bufAppend => exact storeCommand_of_closed _ hp (payloadReserved_eq_false (happend _ _ rfl)) ho
  all_goals exact (onItsPort_of_eq hp _).trans (whenOpen_of_closed ho _)

/-! ### BAD_CAPACITY and INDEX_RANGE (R160, R144) -/

theorem badCapacity_iff (c : Config) (cap : BitVec 32) :
    badCapacity c cap = true ↔ cap.toNat = 0 ∨ c.capacityMax.toNat < cap.toNat := by
  simp [badCapacity]

/-- Settles O21: the two range checks, each with the header written out. -/
theorem capacityAndIndexFaults : Obligations.CapacityAndIndexFaults := by
  refine ⟨fun s cap hp hcap => ?_, fun s k hp hk => ?_⟩
  · show execBufOpen cap s = _
    rw [execBufOpen, onItsPort_of_eq hp, if_pos ((badCapacity_iff _ _).2 hcap), raiseFault_eq, bufOpen_header,
      State.takeFault_of_port hp]
  · show execMixRead k s = _
    rw [execMixRead, onItsPort_of_eq hp, if_pos ((indexOutOfRange_iff _ _).2 hk), raiseFault_eq,
      State.takeFault_of_port hp]
    rfl

/-! ### COUNTER_OVERFLOW (R180, R190, R193) -/

/-- Settles O22: the check of each counter is the last before its command's effect. -/
theorem countersRaiseInsteadOfWrapping : Obligations.CountersRaiseInsteadOfWrapping := by
  refine ⟨fun s offset samples hp ho hover => ?_, fun s hp ho hremain hcurrent => ?_, fun s hp ho hcalled => ?_⟩
  · have hpad : payloadReserved samples 0 = false := payloadReserved_eq_false (.inr rfl)
    rw [exec_bufWrite, exec_bufAppend, storeCommand_of_open _ hp hpad ho, storeCommand_of_open _ hp hpad ho,
      storeAt_of_overflow _ hover, storeAt_of_overflow _ hover, State.takeFault_of_port hp, State.takeFault_of_port hp]
    exact ⟨rfl, rfl⟩
  · have hover : counterOverflows s.ring.current 1 = true := (counterOverflows_iff _ _).2 (by rw [hcurrent]; decide)
    have hunread : ¬ s.ring.remain = 0#64 := hremain
    show execReadOne s = _
    rw [execReadOne, onItsPort_of_eq hp, whenOpen_of_open ho, if_neg hunread, if_pos hover, raiseFault_eq,
      State.takeFault_of_port hp]
    rfl
  · have hover : counterOverflows s.ring.called 1 = true := (counterOverflows_iff _ _).2 (by rw [hcalled]; decide)
    show execCallbackDone s = _
    rw [execCallbackDone, onItsPort_of_eq hp, whenOpen_of_open ho, if_pos hover, raiseFault_eq,
      State.takeFault_of_port hp]
    rfl

end Sys2Proof.Machine
end

section
/-! PROOFS. The register commands (40_synth_registers.md, R120 to R122). -/

namespace Sys2Proof.Machine

theorem exec_chWrite_of_producer {s : State} (hp : s.port = .producer) (ch : Voice) (wave : BitVec 3)
    (gain : BitVec 4) (freq : BitVec 20) :
    exec (.chWrite ch 0#5 wave gain freq) s = .next (s.setRegister ch ⟨wave, gain, freq⟩) :=
  onItsPort_of_eq hp _

/-- Settles O23: the bank left is the old one with one register set. -/
theorem chWriteReplacesOneRegister : Obligations.ChWriteReplacesOneRegister := by
  intro s ch wave gain freq hp
  exact ⟨_, exec_chWrite_of_producer hp ch wave gain freq, PerVoice.get_set_same _ _ _,
    fun v hv => PerVoice.get_set_other _ hv _⟩

/-- Settles O24: the flags left are the old ones with one set. -/
theorem voiceMuteSetsOneFlag : Obligations.VoiceMuteSetsOneFlag := by
  intro s ch m hp
  exact ⟨_, onItsPort_of_eq hp _, PerVoice.get_set_same _ _ _, fun v hv => PerVoice.get_set_other _ hv _⟩

/-- The last write of a sequence to a voice is the last of the later ones, or the first write if it is to that voice
and none of the later ones is. -/
theorem getLast?_filter_cons_getD (w : Voice × ChannelRegister) (ws : List (Voice × ChannelRegister)) (v : Voice)
    (rb : PerVoice ChannelRegister) :
    ((((w :: ws).filter fun w => w.1 == v).getLast?).map (·.2)).getD (rb.get v) =
      (((ws.filter fun w => w.1 == v).getLast?).map (·.2)).getD ((rb.set w.1 w.2).get v) := by
  by_cases hv : w.1 = v
  · subst hv
    rw [List.filter_cons_of_pos (by simp), List.getLast?_cons, PerVoice.get_set_same]
    cases (ws.filter fun x => x.1 == w.1).getLast? <;> rfl
  · rw [List.filter_cons_of_neg (by simpa using hv), PerVoice.get_set_other _ (Ne.symm hv)]

/-- Settles O25, by induction on the writes (`getLast?_filter_cons_getD`). -/
theorem lastWriteToEachSlotRemains : Obligations.LastWriteToEachSlotRemains := by
  intro writes
  induction writes with
  | nil => exact fun s _ => ⟨s, rfl, fun _ => rfl⟩
  | cons w ws ih =>
    intro s hf
    have hwrite := exec_chWrite_of_producer (s := { s with port := .producer }) rfl w.1 w.2.wave w.2.gain w.2.freq
    obtain ⟨t, hrun, hlast⟩ := ih (({ s with port := .producer } : State).setRegister w.1 w.2) hf
    refine ⟨t, (runCommands_cons hwrite hf).trans hrun, fun v => (hlast v).trans ?_⟩
    exact (getLast?_filter_cons_getD w ws v s.rb).symm

end Sys2Proof.Machine
end

section
/-! PROOFS. Ring control and accessors (42_ringbuf_control.md, R160 to R170). -/

namespace Sys2Proof.Machine

/-- Settles O38: a capacity in range passes the check, and the ring left is `Ring.opened`. -/
theorem bufOpenReplacesTheRing : Obligations.BufOpenReplacesTheRing := by
  intro s cap hp hpos hmax
  have hgood : ¬ badCapacity s.cfg cap = true := by rw [badCapacity_iff]; omega
  refine ⟨[], ?_, fun _ => rfl⟩
  show execBufOpen cap s = _
  rw [execBufOpen, onItsPort_of_eq hp, if_neg hgood]
  rfl

/-- Settles O39: the ring left is `Ring.silenced`, whose samples are those of an empty space. -/
theorem fillSilentZeroesTheRing : Obligations.FillSilentZeroesTheRing := by
  intro s hp ho
  exact ⟨[], _, exec_bufFillSilent_of_open hp ho, s.ring.silenced_remain_toNat, fun _ => rfl⟩

/-- Settles O40: on their port and an open ring both commands only set their field. -/
theorem volumeAndMuteAreSet : Obligations.VolumeAndMuteAreSet := by
  intro s v m hp ho
  exact ⟨(onItsPort_of_eq hp _).trans (whenOpen_of_open ho _), (onItsPort_of_eq hp _).trans (whenOpen_of_open ho _)⟩

theorem respondOpen_of_open {i : Instr} {s : State} (hp : s.port = i.port) (ho : s.ring.isOpen = true)
    (ws : List Word) : respondOpen i s ws = .next (s.respond ws) :=
  (onItsPort_of_eq hp _).trans (whenOpen_of_open ho _)

/-- The two response words of a counter are its value in base `2^32` (R89). -/
theorem counterWords_value (c : Counter) :
    c.toNat = (c.extractLsb' 0 32).toNat + (c.extractLsb' 32 32).toNat * 2 ^ 32 := by
  have := c.isLt
  simp only [BitVec.extractLsb'_toNat, Nat.shiftRight_eq_div_pow]
  omega

theorem volumeWord_toNat (v : BitVec 3) : (volumeWord v).toNat = v.toNat :=
  BitVec.toNat_setWidth_of_le (by decide)

theorem muteWord_toNat (m : Bool) : (muteWord m).toNat = m.toNat := by cases m <;> rfl

/-- Settles O41: every accessor responds on the producer's port (`respondOpen_of_open`) with the words of its field. -/
theorem accessorsRespondAndChangeNothing : Obligations.AccessorsRespondAndChangeNothing := by
  intro s hp ho answer
  have haccess : ∀ (i : Instr) (ws : List Word), i.port = .producer → respondOpen i s ws = .next (answer ws) :=
    fun i ws hi => by
      rw [respondOpen_of_open (hp.trans hi.symm) ho, State.respond_of_producer hp]
  exact ⟨⟨_, _, haccess .bufGetCurrent _ rfl, counterWords_value _⟩,
    ⟨_, _, haccess .bufGetRemain _ rfl, counterWords_value _⟩,
    ⟨_, _, haccess .bufGetCalled _ rfl, counterWords_value _⟩,
    ⟨_, haccess .bufGetVolume _ rfl, volumeWord_toNat _⟩,
    ⟨_, haccess .bufGetMute _ rfl, muteWord_toNat _⟩⟩

end Sys2Proof.Machine
end

section
/-! PROOFS. Ring data (43_ringbuf_data.md): a block of samples stored from a position on (R180 to R182). -/

namespace Sys2Proof.Machine

/-! ### The samples stored at positions (R51, R180) -/

section
variable {r : Ring} (start : Nat) {samples : List Sample}

/-- The index a sample of a block is stored at is that of its position. -/
theorem stored_index (cap start j : Nat) : (start % cap + (0 + j)) % cap = (start + j) % cap := by
  rw [Nat.zero_add, Nat.mod_add_mod]

/-- A sample that no later one of the block lands on is the one at its index. -/
theorem Ring.read_stored_last (hwf : r.data.wf = true) {j : Nat} (hj : j < samples.length)
    (hlast : ∀ l, j < l → l < samples.length → (start + l) % r.cap.toNat ≠ (start + j) % r.cap.toNat) :
    samples[j]? =
      some (Memory.read (r.stored (start % r.cap.toNat) samples).data ((start + j) % r.cap.toNat)) := by
  have hread := Memory.read_storeWrapped_last r.cap.toNat (start % r.cap.toNat) 0 j samples r.data hwf hj
    fun l hl hjl => by
      rw [stored_index, stored_index]
      exact hlast l hjl hl
  rw [stored_index] at hread
  rw [List.getElem?_eq_getElem hj, ← hread]
  rfl

/-- An index that no sample of the block lands on keeps its sample. -/
theorem Ring.read_stored_other (hwf : r.data.wf = true) {a : Nat}
    (ha : ∀ j, j < samples.length → (start + j) % r.cap.toNat ≠ a) :
    Memory.read (r.stored (start % r.cap.toNat) samples).data a = Memory.read r.data a :=
  Memory.read_storeWrapped_other r.cap.toNat _ 0 a samples r.data hwf fun j hj => by
    rw [stored_index]
    exact ha j hj

theorem Ring.stored_remain_toNat (b : Nat) (hn : r.remain.toNat + samples.length ≤ counterMax) :
    (r.stored b samples).remain.toNat = r.remain.toNat + samples.length :=
  counterOf_toNat hn

end

theorem storeCommand_of_fits {i : Instr} {s : State} (start : Nat) {samples : List Sample} {pad : BitVec 16}
    (hp : s.port = i.port) (ho : s.ring.isOpen = true) (hc : s.ring.cap ≠ 0#32)
    (hpad : samples.length % 2 = 0 ∨ pad = 0#16) (hn : s.ring.remain.toNat + samples.length ≤ counterMax) :
    storeCommand i s start samples pad = .next (s.setRing (s.ring.stored (start % s.ring.cap.toNat) samples)) :=
  (storeCommand_of_open start hp (payloadReserved_eq_false hpad) ho).trans (storeAt_of_fits hn hc)

/-- Settles O42: the command stores its samples from the offset on (`storeCommand_of_fits`), the last on each index
remaining (`Ring.read_stored_last`) and every other index kept (`Ring.read_stored_other`). -/
theorem bufWriteStoresFromTheOffset : Obligations.BufWriteStoresFromTheOffset := by
  intro s offset samples pad hp ho hc hwf hpad hn
  exact ⟨_, _, storeCommand_of_fits offset.toNat hp ho hc hpad hn,
    Ring.stored_remain_toNat (offset.toNat % s.ring.cap.toNat) hn,
    fun _ hj hlast => Ring.read_stored_last _ hwf hj hlast, fun _ ha => Ring.read_stored_other _ hwf ha⟩

/-- Settles O43: as O42, from the write tail, which is a number and does not wrap. -/
theorem bufAppendStoresFromTheTail : Obligations.BufAppendStoresFromTheTail := by
  intro s samples pad hp ho hc hwf hpad hn tail
  exact ⟨_, _, storeCommand_of_fits tail hp ho hc hpad hn,
    Ring.stored_remain_toNat (tail % s.ring.cap.toNat) hn,
    fun _ hj hlast => Ring.read_stored_last _ hwf hj hlast, fun _ ha => Ring.read_stored_other _ hwf ha⟩

/-- A position a capacity back names the same index (R51, R181), so it is there that a sample written lands. -/
theorem Ring.stored_at_capacity_back {r : Ring} {start j : Nat} {samples : List Sample} (hwf : r.data.wf = true)
    (hj : j < samples.length) (hback : r.cap.toNat ≤ start + j)
    (hlast : ∀ l, j < l → l < samples.length → (start + l) % r.cap.toNat ≠ (start + j) % r.cap.toNat) :
    samples[j]? = some ((r.stored (start % r.cap.toNat) samples).at (start + j - r.cap.toNat)) := by
  rw [Ring.read_stored_last start hwf hj hlast, Nat.mod_eq_sub_mod hback]
  rfl

/-- Settles O44: neither command has a check for an overrun (`storeCommand_of_fits`), and where a sample lands is
`Ring.stored_at_capacity_back`. -/
theorem overrunReplacesTheSampleACapacityBack : Obligations.OverrunReplacesTheSampleACapacityBack := by
  intro s samples pad hp ho hc hwf hpad hn cap lands
  have hlands : ∀ start, lands start (s.setRing (s.ring.stored (start % s.ring.cap.toNat) samples)) := fun start =>
    ⟨rfl, fun j hj hover hlast =>
      Ring.stored_at_capacity_back hwf hj ((Nat.le_add_left cap _).trans hover) hlast⟩
  exact ⟨fun offset => ⟨_, storeCommand_of_fits offset.toNat hp ho hc hpad hn, hlands _⟩,
    _, storeCommand_of_fits _ hp ho hc hpad hn, hlands _⟩

end Sys2Proof.Machine
end

section
/-! PROOFS. Runs of the consumer's commands (44_consumer.md, R190, R192, R193): reads of any ring, the callback (R212),
and the ring as a queue (R184). -/

namespace Sys2Proof.Machine

/-- Settles O46: with unread samples the effect is `exec_readOne_of_unread`. -/
theorem readOneTakesTheSampleAtCurrent : Obligations.ReadOneTakesTheSampleAtCurrent := by
  intro s hp ho hc hr hcur
  have hcur1 : s.ring.current.toNat + 1 ≤ counterMax := hcur
  have hpos : 1 ≤ s.ring.remain.toNat := Nat.pos_of_ne_zero fun h => hr (BitVec.eq_of_toNat_eq h)
  have hrespond := State.respond_of_consumer (s := s.setRing s.ring.advanced) hp
    [sext32 (s.ring.attenuate (s.ring.at s.ring.current.toNat))]
  refine ⟨_, _, (exec_readOne_of_unread hp ho hc hr hcur1).trans (congrArg Host.Outcome.next hrespond),
    Ring.advanced_current_toNat hcur1, ?_⟩
  exact (congrArg (· + 1) s.ring.advanced_remain_toNat).trans (Nat.sub_add_cancel hpos)

theorem exec_callbackDone_of_lt {s : State} (hp : s.port = .consumer) (ho : s.ring.isOpen = true)
    (hn : s.ring.called.toNat + 1 ≤ counterMax) :
    exec .callbackDone s =
      .next (s.setRing { s.ring with called := counterOf (s.ring.called.toNat + 1) }) := by
  have hover : counterOverflows s.ring.called 1 = false := by simpa [counterOverflows] using hn
  show execCallbackDone s = _
  rw [execCallbackDone, onItsPort_of_eq hp, whenOpen_of_open ho, hover]
  rfl

/-- Settles O49: below the counter's maximum the effect is `exec_callbackDone_of_lt`. -/
theorem callbackDoneCountsOneCallback : Obligations.CallbackDoneCountsOneCallback := by
  intro s hp ho hn
  exact ⟨_, exec_callbackDone_of_lt hp ho hn, counterOf_toNat hn⟩

/-! ### One read, of any ring (R190, R192) -/

/-- The ring a read leaves: an underrun changes nothing. -/
def Ring.afterRead (r : Ring) : Ring := if r.remain = 0#64 then r else r.advanced

/-- The sample a read takes: the first unread one, or 0 where there is none. -/
def Ring.nextUnread (r : Ring) : Sample := r.unread.head?.getD 0#16

/-- The room `current` needs for `n` reads: it moves only where there is a sample to read. -/
def Ring.CanRead (r : Ring) (n : Nat) : Prop := r.current.toNat + min n r.remain.toNat ≤ counterMax

theorem Ring.attenuate_zero (r : Ring) : r.attenuate 0#16 = 0#16 := by
  have hshift : ∀ k, sampleOf (asr (0#16).toInt k) = 0#16 := fun k => by simp [asr, sampleOf]
  unfold Ring.attenuate
  rw [hshift]
  split_ifs <;> rfl

theorem Ring.unread_length (r : Ring) : r.unread.length = r.remain.toNat := by simp [Ring.unread]

theorem Ring.unread_eq_nil {r : Ring} (hr : r.remain = 0#64) : r.unread = [] :=
  List.eq_nil_of_length_eq_zero (by rw [r.unread_length, hr]; rfl)

theorem Ring.remain_toNat_pos {r : Ring} (hr : r.remain ≠ 0#64) : 0 < r.remain.toNat :=
  Nat.pos_of_ne_zero fun h => hr (BitVec.eq_of_toNat_eq h)

section
variable {r : Ring}

theorem Ring.CanRead.current_lt {n : Nat} (hn : r.CanRead (n + 1)) (hr : r.remain ≠ 0#64) :
    r.current.toNat + 1 ≤ counterMax := by
  have hpos := Ring.remain_toNat_pos hr
  unfold Ring.CanRead at hn
  omega

/-- A read changes `current` and `remain` only. -/
theorem Ring.afterRead_eq (r : Ring) :
    r.afterRead = { r with current := r.afterRead.current, remain := r.afterRead.remain } := by
  unfold Ring.afterRead
  split <;> rfl

theorem Ring.afterRead_remain_toNat (r : Ring) : r.afterRead.remain.toNat = r.remain.toNat - 1 := by
  unfold Ring.afterRead
  split
  · rename_i hr
    rw [hr]
    rfl
  · exact r.advanced_remain_toNat

theorem Ring.afterRead_current_toNat {n : Nat} (hn : r.CanRead (n + 1)) :
    r.afterRead.current.toNat = r.current.toNat + min 1 r.remain.toNat := by
  unfold Ring.afterRead
  split
  · rename_i hr
    rw [hr]
    rfl
  · rename_i hr
    have hpos := Ring.remain_toNat_pos hr
    rw [Ring.advanced_current_toNat (hn.current_lt hr)]
    omega

theorem Ring.CanRead.afterRead {n : Nat} (hn : r.CanRead (n + 1)) : r.afterRead.CanRead n := by
  have hcurrent := Ring.afterRead_current_toNat hn
  have hremain := r.afterRead_remain_toNat
  unfold Ring.CanRead at hn ⊢
  omega

/-- A read takes the first unread sample from those unread. -/
theorem Ring.afterRead_unread {n : Nat} (hn : r.CanRead (n + 1)) : r.afterRead.unread = r.unread.tail := by
  unfold Ring.afterRead
  split
  · rename_i hr
    rw [Ring.unread_eq_nil hr]
    rfl
  · rename_i hr
    rw [Ring.unread_eq_cons (Ring.remain_toNat_pos hr) (hn.current_lt hr)]
    rfl

end

/-- The state a READ_ONE leaves on an open ring. -/
def State.afterRead (s : State) : State :=
  (({ s with port := .consumer } : State).setRing s.ring.afterRead).respond
    [sext32 (s.ring.attenuate s.ring.nextUnread)]

theorem State.afterRead_output (s : State) :
    s.afterRead.consumer.output = s.consumer.output ++ [sext32 (s.ring.attenuate s.ring.nextUnread)] := rfl

theorem runCommands_readOne (is : List Instr) {s : State} {n : Nat} (hf : s.fault = none) (ho : s.ring.isOpen = true)
    (hc : s.ring.cap ≠ 0#32) (hn : s.ring.CanRead (n + 1)) :
    runCommands (.readOne :: is) s = runCommands is s.afterRead := by
  refine runCommands_cons (t := s.afterRead) ?_ hf
  by_cases hr : s.ring.remain = 0#64
  · have hsilence : s.ring.attenuate s.ring.nextUnread = 0#16 := by
      rw [Ring.nextUnread, Ring.unread_eq_nil hr]
      exact s.ring.attenuate_zero
    have hring : s.ring.afterRead = s.ring := if_pos hr
    rw [State.afterRead, hsilence, hring]
    exact exec_readOne_of_underrun (s := { s with port := .consumer }) rfl ho hr
  · have hcur := hn.current_lt hr
    have hfirst : s.ring.nextUnread = s.ring.at s.ring.current.toNat := by
      rw [Ring.nextUnread, Ring.unread_eq_cons (Ring.remain_toNat_pos hr) hcur]
      rfl
    have hring : s.ring.afterRead = s.ring.advanced := if_neg hr
    rw [State.afterRead, hfirst, hring]
    exact exec_readOne_of_unread (s := { s with port := .consumer }) rfl ho hc hr hcur

/-! ### Any number of reads (R163, R212) -/

/-- `n` reads respond with the first `n` unread samples, attenuated, and with 0 past the last of them. -/
theorem runCommands_readOnes (n : Nat) {s : State} (hf : s.fault = none) (ho : s.ring.isOpen = true)
    (hc : s.ring.cap ≠ 0#32) (hn : s.ring.CanRead n) :
    ∃ (u : State) (current remain : Counter), runCommands (List.replicate n .readOne) s = some u ∧ u.fault = none ∧
      u.ring = { s.ring with current := current, remain := remain } ∧
      current.toNat = s.ring.current.toNat + min n s.ring.remain.toNat ∧
      remain.toNat = s.ring.remain.toNat - n ∧
      u.consumer.output = s.consumer.output ++
        (List.range n).map fun j => sext32 (s.ring.attenuate (s.ring.unread[j]?.getD 0#16)) := by
  induction n generalizing s with
  | zero => exact ⟨s, _, _, rfl, hf, rfl, by simp, by simp, by simp⟩
  | succ n ih =>
    have hring : s.afterRead.ring = s.ring.afterRead := State.respond_ring _ _
    have hkeep := s.ring.afterRead_eq
    have hunread := Ring.afterRead_unread hn
    have hcurrent := Ring.afterRead_current_toNat hn
    have hremain := s.ring.afterRead_remain_toNat
    obtain ⟨u, current, remain, hrun, hfault, hu, hcur, hrem, hout⟩ := ih (s := s.afterRead) hf
      (by rw [hring, hkeep]; exact ho) (by rw [hring, hkeep]; exact hc) (hring ▸ hn.afterRead)
    rw [hring] at hu hcur hrem hout
    refine ⟨u, current, remain, (runCommands_readOne _ hf ho hc hn).trans hrun, hfault, ?_, by omega, by omega, ?_⟩
    · rw [hu, hkeep]
    · have hatt : s.ring.afterRead.attenuate = s.ring.attenuate := by rw [hkeep]; rfl
      rw [hout, State.afterRead_output, List.append_assoc, hatt, hunread, List.range_succ_eq_map]
      simp [Ring.nextUnread, Function.comp_def, List.head?_eq_getElem?]

/-- A silent ring has only zeros to read. -/
theorem Ring.silenced_unread (r : Ring) : r.silenced.unread = List.replicate r.cap.toNat 0#16 := by
  have hat : ∀ p, r.silenced.at p = 0#16 := fun _ => rfl
  simp only [Ring.unread, r.silenced_remain_toNat, hat, List.map_const', List.length_range]

/-- Settles O50: after BUF_FILL_SILENT a read finds a zero or nothing (`runCommands_readOnes`), and either is answered
with 0. -/
theorem fillSilentThenReadsReturnSilence : Obligations.FillSilentThenReadsReturnSilence := by
  intro s k hf ho hc
  have hremain := s.ring.silenced_remain_toNat
  have hcanRead : s.ring.silenced.CanRead k := by
    have hcurrent : s.ring.silenced.current.toNat = 0 := rfl
    have hcap := s.ring.cap.isLt
    unfold Ring.CanRead counterMax
    omega
  obtain ⟨t, current, remain, hrun, -, ht, hcur, hrem, hout⟩ := runCommands_readOnes k
    (s := ({ s with port := .producer } : State).setRing s.ring.silenced) hf ho hc hcanRead
  have hzero : ∀ j, s.ring.silenced.unread[j]?.getD 0#16 = 0#16 := fun j => by
    rw [s.ring.silenced_unread, List.getElem?_replicate]
    split <;> rfl
  refine ⟨t, (runCommands_bufFillSilent _ hf ho).trans hrun, hout.trans ?_, ?_, ?_⟩
  · simp only [State.setRing_ring, hzero, Ring.attenuate_zero, List.map_const', List.length_range]
    rfl
  · rw [ht, hrem, State.setRing_ring, hremain]
  · rw [ht, hcur, State.setRing_ring, hremain]
    exact Nat.zero_add _

theorem runCommands_append (is js : List Instr) (s : State) :
    runCommands (is ++ js) s = (runCommands is s).bind (runCommands js) := by
  induction is generalizing s with
  | nil => rfl
  | cons i is ih =>
    rw [List.cons_append, runCommands_cons_eq_bind, runCommands_cons_eq_bind i is]
    cases runCommands [i] s with
    | none => rfl
    | some t => exact ih t

/-- The commands a CALLBACK assembles to (R97). -/
theorem assemble_callback (c : Config) :
    (callback c).filterMap assemble = List.replicate c.cbLen .readOne ++ [.callbackDone] := by
  rw [callback, List.filterMap_append, List.filterMap_replicate]
  rfl

/-- Settles O51: a CALLBACK is its reads (`runCommands_readOnes`), which keep the ring open and `called` as it was, and
one CALLBACK_DONE. -/
theorem callbackReadsItsBlockAndCountsOnce : Obligations.CallbackReadsItsBlockAndCountsOnce := by
  intro s hf ho hc hcur hcalled
  have hcanRead : s.ring.CanRead s.cfg.cbLen :=
    (Nat.add_le_add_left (min_le_left _ _) _).trans hcur
  obtain ⟨u, current, remain, hreads, hufault, hu, hcurrent, -, hout⟩ :=
    runCommands_readOnes s.cfg.cbLen hf ho hc hcanRead
  obtain ⟨called, hdone, hcount⟩ := callbackDoneCountsOneCallback { u with port := .consumer } rfl
    (by rw [hu]; exact ho) (by rw [hu]; exact hcalled)
  refine ⟨{ u with port := .consumer, ring := { u.ring with called := called } }, ?_, ?_, ?_, ?_⟩
  · rw [assemble_callback, runCommands_append, hreads]
    exact runCommands_cons hdone hufault
  · rw [hu] at hcount
    exact hcount
  · rw [hout, List.length_append, List.length_map, List.length_range]
  · rw [hu, hcurrent, Nat.add_sub_cancel_left]

/-! ### The paced ring is a queue (R184) -/

/-- Two positions less than a capacity apart name different indices. -/
theorem mod_ne_of_lt_of_lt_add {a b cap : Nat} (hab : a < b) (hb : b < a + cap) : b % cap ≠ a % cap := by
  intro h
  have hdiff := Nat.sub_mod_eq_zero_of_mod_eq h
  rw [Nat.mod_eq_of_lt (by omega)] at hdiff
  omega

/-- An append within the capacity puts its samples after those unread, on indices of their own. -/
theorem Ring.stored_tail_unread {r : Ring} {samples : List Sample} (hwf : r.data.wf = true)
    (hn : r.remain.toNat + samples.length ≤ r.cap.toNat) :
    (r.stored (r.tail % r.cap.toNat) samples).unread = r.unread ++ samples := by
  have hremain : (r.stored (r.tail % r.cap.toNat) samples).remain.toNat = r.remain.toNat + samples.length :=
    Ring.stored_remain_toNat _ (by have := r.cap.isLt; unfold counterMax; omega)
  have hold : ∀ j ∈ List.range r.remain.toNat,
      (r.stored (r.tail % r.cap.toNat) samples).at (r.current.toNat + j) = r.at (r.current.toNat + j) := by
    intro j hj
    refine Ring.read_stored_other r.tail hwf fun k hk => ?_
    have hj := List.mem_range.1 hj
    exact mod_ne_of_lt_of_lt_add (by unfold Ring.tail; omega) (by unfold Ring.tail; omega)
  have hnew : ∀ j (hj : j < samples.length),
      (r.stored (r.tail % r.cap.toNat) samples).at (r.tail + j) = samples[j] := by
    intro j hj
    have hread := Ring.read_stored_last r.tail hwf hj fun l hjl hl =>
      mod_ne_of_lt_of_lt_add (by omega) (by omega)
    rw [List.getElem?_eq_getElem hj] at hread
    exact (Option.some.inj hread).symm
  have hcurrent : (r.stored (r.tail % r.cap.toNat) samples).current = r.current := rfl
  rw [Ring.unread, hremain, hcurrent, List.range_add, List.map_append, List.map_congr_left hold, List.map_map]
  congr 1
  refine List.ext_getElem (by simp) fun j _ hj => ?_
  simpa [Ring.tail, Nat.add_assoc] using hnew j hj

/-- A read of a queue takes its first sample, or answers 0 where there is none. -/
theorem queueRun_none (cap : Nat) (ops : List (Option (List Sample))) (q : List Sample) :
    queueRun cap (none :: ops) q =
      (queueRun cap ops q.tail).map fun r => (q.head?.getD 0#16 :: r.1, r.2) := by
  cases q <;> rfl

theorem queueRun_append {cap : Nat} {samples : List Sample} {ops : List (Option (List Sample))} {q : List Sample}
    {result : List Sample × List Sample} (h : queueRun cap (some samples :: ops) q = some result) :
    q.length + samples.length ≤ cap ∧ queueRun cap ops (q ++ samples) = some result := by
  rw [queueRun] at h
  split at h
  · exact ⟨‹_›, h⟩
  · cases h

/-- Settles O52, by induction on the operations: an append puts its samples behind those unread
(`Ring.stored_tail_unread`), a read takes the first of them (`Ring.afterRead_unread`). -/
theorem pacedRingIsAQueue : Obligations.PacedRingIsAQueue := by
  intro ops
  induction ops with
  | nil =>
    intro s out q _ _ _ _ hpaced _ hq
    cases hq
    exact ⟨s, rfl, by simp, rfl, hpaced⟩
  | cons op ops ih =>
    intro s out q hf ho hc hwf hpaced hcur hq
    rw [List.length_cons] at hcur
    cases op with
    | some samples =>
      obtain ⟨hfits, hrest⟩ := queueRun_append hq
      rw [Ring.unread_length] at hfits
      have hn : s.ring.remain.toNat + samples.length ≤ counterMax := by
        have := s.ring.cap.isLt
        unfold counterMax
        omega
      have hpaced' : (s.ring.stored (s.ring.tail % s.ring.cap.toNat) samples).paced :=
        (Ring.stored_remain_toNat _ hn).trans_le hfits
      obtain ⟨t, hrun, hout, hunread, hpacedt⟩ := ih
        (({ s with port := .producer } : State).setRing (s.ring.stored (s.ring.tail % s.ring.cap.toNat) samples))
        out q hf ho hc (Memory.storeWrapped_wf _ _ _ _ _ hwf) hpaced' (Nat.le_of_succ_le hcur)
        ((congrArg _ (Ring.stored_tail_unread hwf hfits)).trans hrest)
      exact ⟨t, (runCommands_bufAppend _ hf (payloadReserved_eq_false (.inr rfl)) ho hc hn).trans hrun, hout, hunread,
        hpacedt⟩
    | none =>
      rw [queueRun_none, Option.map_eq_some_iff] at hq
      obtain ⟨⟨out', q'⟩, hrest, hresult⟩ := hq
      cases hresult
      have hcanRead : s.ring.CanRead (ops.length + 1) :=
        (Nat.add_le_add_left (min_le_left _ _) _).trans hcur
      have hring : s.afterRead.ring = s.ring.afterRead := State.respond_ring _ _
      have hkeep := s.ring.afterRead_eq
      have hcurrent := Ring.afterRead_current_toNat hcanRead
      have hremain := s.ring.afterRead_remain_toNat
      obtain ⟨t, hrun, hout, hunread, hpacedt⟩ := ih s.afterRead out' q' hf
        (by rw [hring, hkeep]; exact ho) (by rw [hring, hkeep]; exact hc) (by rw [hring, hkeep]; exact hwf)
        (by rw [hring, Ring.paced, hremain, hkeep]; exact (Nat.sub_le _ _).trans hpaced)
        (by rw [hring]; omega)
        (by rw [hring, Ring.afterRead_unread hcanRead, hkeep]; exact hrest)
      refine ⟨t, (runCommands_readOne _ hf ho hc hcanRead).trans hrun, ?_, hunread, hpacedt⟩
      have hatt : s.ring.afterRead.attenuate = s.ring.attenuate := by rw [hkeep]; rfl
      rw [hout, State.afterRead_output, hring, hatt, List.append_assoc]
      rfl

end Sys2Proof.Machine
end
